-- ==== Sys2Proof/Word.lean ====
section
/-! DEFINITION. The bit-vector types the spec names: bytes, the command word, the 64-bit data operand, and the
16-bit and 4-bit registers. Bit 0 is the least significant bit throughout (R7). -/

namespace Sys2Proof

/-- A byte, `0 .. 255` (R7). -/
abbrev Byte := BitVec 8

/-- A 32-bit word: a command word (R60) or read data (R30). -/
abbrev Word := BitVec 32

/-- The 64-bit data operand of a command (R6 `DATA_W`, R30). -/
abbrev Data := BitVec 64

/-- A 16-bit register or buffer index (R20, R40). -/
abbrev Half := BitVec 16

/-- A 4-bit response code, and the width of `FIRST` (R20, R171). -/
abbrev Code := BitVec 4

end Sys2Proof
end

