-- ==== Sys2Proof/Syntax.lean ====
section
/-! DEFINITION. The commands: the triple the host presents (R30), and the instruction it decodes to, one constructor
for each row of the opcode table (R70). An instruction carries the fields of its word and the operands its command
reads; an operand the command ignores (R68, R69) is not part of it. -/

namespace Sys2Proof

/-- A command as the command port accepts it (R30): the word, the data operand and the text operand. -/
structure Command where
  word : Word
  data : Data
  text : List Byte
deriving DecidableEq, Repr

/-- The `S` bit of ENC_INT (R62): which of the two readings `data` has. -/
inductive Signedness where
  | unsigned
  | signed
deriving DecidableEq, Repr

/-- The `T` bit of ENC_INT (R62): what happens to a value that does not fit the width. -/
inductive Policy where
  | strict
  | truncating
deriving DecidableEq, Repr

/-- The 13 commands (R70). A width `W` counts bytes and an offset `O` is a buffer index; which values the encoding
admits is `Instr.wellFormed`. `data` is the whole 64-bit operand; what a command reads of it is in Machine/Operands. -/
inductive Instr where
  /-- NOP (R151) -/
  | nop
  /-- ENC_INT W, S, T, data (R82) -/
  | encInt (S : Signedness) (T : Policy) (W : Nat) (data : Data)
  /-- ENC_FLOAT W, data (R89) -/
  | encFloat (W : Nat) (data : Data)
  /-- ENC_TEXT W, text (R93) -/
  | encText (W : Nat) (text : List Byte)
  /-- BUF_CLEAR (R100) -/
  | bufClear
  /-- CRC_INIT (R124) -/
  | crcInit
  /-- CRC_BYTE data (R125) -/
  | crcByte (data : Data)
  /-- CRC_BUF O (R126) -/
  | crcBuf (O : Nat)
  /-- CRC_EMIT (R128) -/
  | crcEmit
  /-- CRC_READ (R129) -/
  | crcRead
  /-- STAT_READ (R152) -/
  | statRead
  /-- STAT_CLEAR (R153) -/
  | statClear
  /-- BUF_READ O (R106) -/
  | bufRead (O : Nat)
deriving DecidableEq, Repr

/-- The 13 mnemonics of the opcode map (R70). -/
inductive Mnemonic where
  | nop | encInt | encFloat | encText | bufClear | crcInit | crcByte | crcBuf | crcEmit | crcRead | statRead
  | statClear | bufRead
deriving DecidableEq, Repr

/-- The mnemonic of an instruction (R70). -/
def Instr.mnemonic : Instr → Mnemonic
  | .nop => .nop
  | .encInt _ _ _ _ => .encInt
  | .encFloat _ _ => .encFloat
  | .encText _ _ => .encText
  | .bufClear => .bufClear
  | .crcInit => .crcInit
  | .crcByte _ => .crcByte
  | .crcBuf _ => .crcBuf
  | .crcEmit => .crcEmit
  | .crcRead => .crcRead
  | .statRead => .statRead
  | .statClear => .statClear
  | .bufRead _ => .bufRead

end Sys2Proof
end

