-- ==== Sys2Proof/WellFormed.lean ====
section
/-! DEFINITION. Which instructions the 32-bit command word can carry: a width in the 8-bit field `W` (R64) and an
offset in the 16-bit field `O` (R65). Which of those values a command ACCEPTS is the command's own rule, not this. -/

namespace Sys2Proof

/-- R64: `W = word[15:8]`, an unsigned number 0..255. -/
def widthFits (W : Nat) : Bool := W < 256

/-- R65: `O = word[31:16]`, an unsigned index 0..65535. -/
def offsetFits (O : Nat) : Bool := O < 65536

/-- The instruction has an encoding (R60). -/
def Instr.wellFormed : Instr → Bool
  | .nop => true
  | .encInt _ _ W _ => widthFits W
  | .encFloat W _ => widthFits W
  | .encText W _ => widthFits W
  | .bufClear => true
  | .crcInit => true
  | .crcByte _ => true
  | .crcBuf O => offsetFits O
  | .crcEmit => true
  | .crcRead => true
  | .statRead => true
  | .statClear => true
  | .bufRead O => offsetFits O

end Sys2Proof
end

