-- ==== Sys2Proof/Decode.lean ====
section
/-! DEFINITION. The decoder of R66, total on every 32-bit word, and the encoder of R75. Opcode values are those of the
opcode map (R70). The opcode table's masks and patterns stand beside them as data (R66 says that the two agree). -/

namespace Sys2Proof

/-- Why a word decodes to `IllegalCommand` (R66): the two grounds of R172. Both give the same response; the block
stores neither. -/
inductive Illegal where
  /-- opcode 0xD, 0xE or 0xF (R71) -/
  | reservedOpcode
  /-- a bit the selected command does not use is set (R67) -/
  | reservedBits
deriving DecidableEq, Repr

/-- `v[lo+len-1 : lo]` of a word (R7). -/
def bits (v : Word) (lo len : Nat) : BitVec len := v.extractLsb' lo len

/-- `OP = word[3:0]` (R61). -/
def opField (w : Word) : BitVec 4 := bits w 0 4

/-- `S = word[4]` (R62). -/
def signField (w : Word) : Signedness := if bits w 4 1 = 1#1 then .signed else .unsigned

/-- `T = word[5]` (R62). -/
def policyField (w : Word) : Policy := if bits w 5 1 = 1#1 then .truncating else .strict

/-- `W = word[15:8]` (R64). -/
def widthField (w : Word) : Nat := (bits w 8 8).toNat

/-- `O = word[31:16]` (R65). -/
def offsetField (w : Word) : Nat := (bits w 16 16).toNat

/-- The instruction, if every bit its command does not use is 0 (R67). -/
def ifUnusedZero (unusedZero : Bool) (i : Instr) : Except Illegal Instr :=
  if unusedZero then .ok i else .error .reservedBits

/-- `decode(word)` of R66, with the operands the selected command reads (R68, R69) taken into the instruction. -/
def decode (c : Command) : Except Illegal Instr :=
  let w := c.word
  match (opField w).toNat with
  | 0x0 => ifUnusedZero (w == 0) .nop
  | 0x1 => ifUnusedZero (bits w 6 2 == 0 && bits w 16 16 == 0)
            (.encInt (signField w) (policyField w) (widthField w) c.data)
  | 0x2 => ifUnusedZero (bits w 4 4 == 0 && bits w 16 16 == 0) (.encFloat (widthField w) c.data)
  | 0x3 => ifUnusedZero (bits w 4 4 == 0 && bits w 16 16 == 0) (.encText (widthField w) c.text)
  | 0x4 => ifUnusedZero (bits w 4 28 == 0) .bufClear
  | 0x5 => ifUnusedZero (bits w 4 28 == 0) .crcInit
  | 0x6 => ifUnusedZero (bits w 4 28 == 0) (.crcByte c.data)
  | 0x7 => ifUnusedZero (bits w 4 12 == 0) (.crcBuf (offsetField w))
  | 0x8 => ifUnusedZero (bits w 4 28 == 0) .crcEmit
  | 0x9 => ifUnusedZero (bits w 4 28 == 0) .crcRead
  | 0xA => ifUnusedZero (bits w 4 28 == 0) .statRead
  | 0xB => ifUnusedZero (bits w 4 28 == 0) .statClear
  | 0xC => ifUnusedZero (bits w 4 12 == 0) (.bufRead (offsetField w))
  | _ => .error .reservedOpcode

/-- The `S` bit as a number (R75). -/
def signBit : Signedness → Nat
  | .unsigned => 0
  | .signed => 1

/-- The `T` bit as a number (R75). -/
def policyBit : Policy → Nat
  | .strict => 0
  | .truncating => 1

/-- `word = OP | (S << 4) | (T << 5) | (W << 8) | (O << 16)` (R75). -/
def commandWord (op s t w o : Nat) : Word :=
  BitVec.ofNat 32 op ||| (BitVec.ofNat 32 s <<< 4) ||| (BitVec.ofNat 32 t <<< 5) ||| (BitVec.ofNat 32 w <<< 8)
    ||| (BitVec.ofNat 32 o <<< 16)

/-- The opcode of an instruction (R70). -/
def Instr.opcode : Instr → Nat
  | .nop => 0x0
  | .encInt _ _ _ _ => 0x1
  | .encFloat _ _ => 0x2
  | .encText _ _ => 0x3
  | .bufClear => 0x4
  | .crcInit => 0x5
  | .crcByte _ => 0x6
  | .crcBuf _ => 0x7
  | .crcEmit => 0x8
  | .crcRead => 0x9
  | .statRead => 0xA
  | .statClear => 0xB
  | .bufRead _ => 0xC

/-- The command word of an instruction (R75): fields a command does not use are 0. -/
def Instr.word : Instr → Word
  | .nop => commandWord 0x0 0 0 0 0
  | .encInt S T W _ => commandWord 0x1 (signBit S) (policyBit T) W 0
  | .encFloat W _ => commandWord 0x2 0 0 W 0
  | .encText W _ => commandWord 0x3 0 0 W 0
  | .bufClear => commandWord 0x4 0 0 0 0
  | .crcInit => commandWord 0x5 0 0 0 0
  | .crcByte _ => commandWord 0x6 0 0 0 0
  | .crcBuf O => commandWord 0x7 0 0 0 O
  | .crcEmit => commandWord 0x8 0 0 0 0
  | .crcRead => commandWord 0x9 0 0 0 0
  | .statRead => commandWord 0xA 0 0 0 0
  | .statClear => commandWord 0xB 0 0 0 0
  | .bufRead O => commandWord 0xC 0 0 0 O

/-- The data operand an instruction carries; 0 where its command reads none (R68). -/
def Instr.dataOperand : Instr → Data
  | .nop => 0
  | .encInt _ _ _ data => data
  | .encFloat _ data => data
  | .encText _ _ => 0
  | .bufClear => 0
  | .crcInit => 0
  | .crcByte data => data
  | .crcBuf _ => 0
  | .crcEmit => 0
  | .crcRead => 0
  | .statRead => 0
  | .statClear => 0
  | .bufRead _ => 0

/-- The text operand an instruction carries; empty where its command reads none (R69). -/
def Instr.textOperand : Instr → List Byte
  | .nop => []
  | .encInt _ _ _ _ => []
  | .encFloat _ _ => []
  | .encText _ text => text
  | .bufClear => []
  | .crcInit => []
  | .crcByte _ => []
  | .crcBuf _ => []
  | .crcEmit => []
  | .crcRead => []
  | .statRead => []
  | .statClear => []
  | .bufRead _ => []

/-- The command that presents a well-formed instruction (R75), ignored operands 0 or empty. -/
def encode (i : Instr) : Command := { word := i.word, data := i.dataOperand, text := i.textOperand }

/-- One row of the opcode table: `word & mask = match` selects the command (R66). -/
structure TableRow where
  mnemonic : Mnemonic
  mask : Word
  pattern : Word
deriving DecidableEq, Repr

/-- The rows of spec/opcode_table.json: mnemonic, mask, match. -/
def opcodeTable : List TableRow :=
  [ ⟨.nop, 0xFFFFFFFF#32, 0x00000000#32⟩,
    ⟨.encInt, 0xFFFF00CF#32, 0x00000001#32⟩,
    ⟨.encFloat, 0xFFFF00FF#32, 0x00000002#32⟩,
    ⟨.encText, 0xFFFF00FF#32, 0x00000003#32⟩,
    ⟨.bufClear, 0xFFFFFFFF#32, 0x00000004#32⟩,
    ⟨.crcInit, 0xFFFFFFFF#32, 0x00000005#32⟩,
    ⟨.crcByte, 0xFFFFFFFF#32, 0x00000006#32⟩ ] ++
  [ ⟨.crcBuf, 0x0000FFFF#32, 0x00000007#32⟩,
    ⟨.crcEmit, 0xFFFFFFFF#32, 0x00000008#32⟩,
    ⟨.crcRead, 0xFFFFFFFF#32, 0x00000009#32⟩,
    ⟨.statRead, 0xFFFFFFFF#32, 0x0000000A#32⟩,
    ⟨.statClear, 0xFFFFFFFF#32, 0x0000000B#32⟩,
    ⟨.bufRead, 0x0000FFFF#32, 0x0000000C#32⟩ ]

/-- A word given as a number of `nbits` bits, the bits above them 0. -/
def tableWord (nbits w : Nat) : Word := BitVec.ofNat 32 (w % 2 ^ nbits)

/-- The command the table's bits stand for: the word, with data operand 0 and an empty text operand. A command word is
one 32-bit number at the port (R30, R73); no byte order applies to it. -/
def tableCommand (nbits w : Nat) : Command := { word := tableWord nbits w, data := 0, text := [] }

/-- The instruction the decoder reads from an opcode-table word; `none` where it answers `IllegalCommand`. -/
def decodeTableWord (nbits w : Nat) : Option Instr :=
  match decode (tableCommand nbits w) with
  | .ok i => some i
  | .error _ => none

end Sys2Proof
end

