-- ==== Sys2Proof/Config.lean ====
section
/-! DEFINITION. What is fixed when the block is built (R6): the two parameters the spec leaves open, `BUF_CAP` and
`P_TEXT_HIGH`, and the two CRC constants the source fixes. -/

namespace Sys2Proof

/-- `P_TEXT_HIGH` (R6, R95): what ENC_TEXT does with a text byte 0x80..0xFF. -/
inductive TextHigh where
  /-- such bytes are copied unchanged -/
  | pass
  /-- the command raises `NonAscii` -/
  | reject
deriving DecidableEq, Repr

/-- The parameters of one built block (R6). They are not architectural state (R200): no command and no reset changes
them (R205). The step takes them from the state's field `cfg`, so that a claim about every state is a claim about
every value of both parameters (log entry 1). -/
structure Config where
  /-- `BUF_CAP`, the buffer capacity in bytes, at most 65535 -/
  bufCap : Fin 65536
  /-- `P_TEXT_HIGH` -/
  textHigh : TextHigh
deriving DecidableEq, Repr

/-- R6: `1 <= BUF_CAP <= 65535`; the upper bound is the type's. -/
def Config.wf (cfg : Config) : Bool := 1 ≤ cfg.bufCap.val

/-- DESIGN CHOICE (log entry 2): the parameters of the one block `State.reset` describes. 256 is the default R6 gives
`BUF_CAP`; `Pass` is the value 95_test_vectors.md assumes where a vector names none. No statement rests on either. -/
def Config.specDefault : Config := { bufCap := 256, textHigh := .pass }

/-- The reflected CRC polynomial, fixed by the source (R6, R121). -/
def crcPolynomial : Half := 0xA001#16

/-- The value CRC_INIT and reset load into `CRC` (R6, R124, R200). -/
def crcSeed : Half := 0xFFFF#16

end Sys2Proof
end

