-- ==== Sys2Proof/Machine/State.lean ====
section
/-! DEFINITION. The state of `CRCENC`: the architectural tuple `(CRC, LEN, BUF, ERR, FIRST)` of R20, the two built-in
parameters (R6), and the block's two ports (R30) as lists of what comes in and what has gone out. -/

namespace Sys2Proof.Machine

/-- The buffer `BUF` (R20, R40): index and byte pairs. Its canonical form is `Memory.wf`: indices strictly rising. An
index that is not listed HOLDS NO VALUE (R23: absent, not 0). -/
abbrev Memory := List Host.Cell

/-- A response of the response port (R30): the 4-bit code (R171) and 32 bits of read data. -/
structure Response where
  code : Code
  rdata : Word
deriving DecidableEq, Repr

/-- What can happen at the block's inputs in one step (R30, R31). -/
inductive PortEvent where
  /-- the command port accepts this command -/
  | command (c : Command)
  /-- no command is accepted: the port holds the next one off (R210), or the host presents none yet (R188) -/
  | wait
  /-- the reset input is asserted (R200); a command accepted but not yet answered, if there is one, is lost (R201) -/
  | reset (outstanding : Option Command)
deriving DecidableEq, Repr

/-- The state of the block and of its ports. The first five fields are the whole architectural state (R20). -/
structure State where
  /-- `CRC`, the running CRC value (R21) -/
  crc : Half
  /-- `LEN`, the number of valid bytes in `BUF` (R22) -/
  len : Half
  /-- `BUF`, the byte buffer (R23) -/
  buf : Memory
  /-- `ERR`, the sticky error flag (R25) -/
  err : Bool
  /-- `FIRST`, the code of the first failure since the last clear (R26) -/
  first : Code
  /-- MODEL'S OWN: the parameters the block was built with (R6, R205; log entry 1) -/
  cfg : Config
  /-- MODEL'S OWN: what is still to happen at the command port and the reset input, soonest first (R28, R31; log
  entry 3) -/
  port : List PortEvent
  /-- MODEL'S OWN: the responses given so far, oldest first (R30, R31; log entry 4) -/
  responses : List Response
deriving DecidableEq, Repr

/-- The machine stops with a fault. The spec gives the block none: every error is a response (R170). -/
inductive Fault where
  /-- Raised by CRC_BUF and BUF_READ when the state says `LEN` covers an index and `BUF` holds no value there. Such a
  state breaks R23; no run reaches one (`State.Inv`, Safety.lean). Safe: the model stops. Log entry 5. -/
  | absentByte
deriving DecidableEq, Repr

/-- No meaning for the instruction. -/
inductive Refusal where
  /-- Raised by `exec` for an instruction without a meaning; no arm of `exec` does. Safe: the model stops. -/
  | notModelled (mnemonic : String)
deriving DecidableEq, Repr

/-- The block with parameters `cfg` right after reset or power-on (R200, R202), nothing yet presented or answered. -/
def State.resetWith (cfg : Config) : State :=
  { crc := 0xFFFF#16, len := 0#16, buf := [], err := false, first := 0#4, cfg := cfg, port := [], responses := [] }

/-- The machine right after reset, with the spec's default parameters (log entry 2). -/
def State.reset : State := State.resetWith Config.specDefault

end Sys2Proof.Machine
end

