-- ==== Sys2Proof/Machine/Flags.lean ====
section
/-! DEFINITION. The response codes (R171), the sticky error state `ERR` and `FIRST` (R25, R26) and the STATUS view of
it (R24). `ERR` is the block's only flag (R29). -/

namespace Sys2Proof.Machine

/-- The errors a command can raise (R171). -/
inductive ErrorKind where
  | sizeMismatch
  | tooLong
  | illegalCommand
  | overflow
  | outOfRange
  | nonAscii
deriving DecidableEq, Repr

/-- The numeric code of an error (R171). -/
def ErrorKind.code : ErrorKind → Code
  | .sizeMismatch => 1#4
  | .tooLong => 2#4
  | .illegalCommand => 3#4
  | .overflow => 4#4
  | .outOfRange => 5#4
  | .nonAscii => 6#4

/-- The code of a successful command (R171). -/
def codeOk : Code := 0#4

/-- Steps 1 and 2 of R176: `FIRST` takes the code if `ERR = 0`, then `ERR` is set. -/
def State.recordError (e : ErrorKind) (s : State) : State :=
  { s with err := true, first := if s.err then s.first else e.code }

/-- STAT_CLEAR's two writes (R153). -/
def State.clearErrors (s : State) : State := { s with err := false, first := 0#4 }

/-- `STATUS` (R24): `(zext_32(LEN) << 16) | (zext_32(FIRST) << 4) | zext_32(ERR)`. -/
def State.status (s : State) : Word :=
  (s.len.setWidth 32 <<< 16) ||| (s.first.setWidth 32 <<< 4) ||| (BitVec.ofBool s.err).setWidth 32

end Sys2Proof.Machine
end

