-- ==== Sys2Proof/Machine/Ops.lean ====
section
/-! DEFINITION. The named operations the meanings share: the buffer's primitives (R10), answering a command (R11), the
one operation by which a command fails (R176), and the reset input (R200). -/

namespace Sys2Proof.Machine

/-- The byte at an index; `none` where the buffer holds no value (R23). -/
def Memory.read : Memory → Nat → Option Byte
  | [], _ => none
  | (a', b) :: m, a => if a = a' then some b else Memory.read m a

/-- The buffer with byte `b` at index `a`, indices kept strictly rising. -/
def Memory.write : Memory → Nat → Byte → Memory
  | [], a, b => [(a, b)]
  | (a', b') :: m, a, b =>
    if a < a' then (a, b) :: (a', b') :: m
    else if a = a' then (a, b) :: m
    else (a', b') :: Memory.write m a b

/-- Writes a list, its first byte at index `a` and the rest at rising indices (R41). -/
def Memory.writeList : Memory → Nat → List Byte → Memory
  | m, _, [] => m
  | m, a, b :: l => Memory.writeList (Memory.write m a b) (a + 1) l

/-- `MemRead(i, n)` (R10), the list `BUF[i .. i+n-1]`; `none` where one of those bytes holds no value. -/
def Memory.readList (m : Memory) : Nat → Nat → Option (List Byte)
  | _, 0 => some []
  | i, n + 1 =>
    match m.read i, m.readList (i + 1) n with
    | some b, some l => some (b :: l)
    | _, _ => none

/-- The buffer's canonical form: indices strictly rising, so that equal buffers are equal lists. -/
def Memory.wf (m : Memory) : Bool := decide (m.Pairwise fun x y => x.1 < y.1)

/-- The outcome of an instruction. -/
abbrev Result := Host.Outcome State Fault Refusal

/-- `respond(code, rdata)` (R11): one response more at the response port, after all earlier ones (R31). -/
def State.respond (code : Code) (rdata : Word) (s : State) : State :=
  { s with responses := s.responses ++ [{ code := code, rdata := rdata }] }

/-- `respond(OK, rdata)`: the command has succeeded. -/
def succeed (rdata : Word) (s : State) : Result := .next (s.respond codeOk rdata)

/-- `raise E`, all that a failing command does (R11, R176): the sticky update, then `respond(E, 0)`. This is the
block's only exception: it saves nothing else and jumps nowhere (R181), there is no return from it (R182), and the
next command runs as usual (R170). -/
def State.raise (e : ErrorKind) (s : State) : State := (s.recordError e).respond e.code 0

/-- The command ends with error `e` (R11). -/
def fail (e : ErrorKind) (s : State) : Result := .next (s.raise e)

/-- Writes the `CRC` register (R21). -/
def State.setCrc (c : Half) (s : State) : State := { s with crc := c }

/-- `Append(l)` (R10): `l` at indices `LEN .. LEN+|l|-1`, and `LEN <- LEN + |l|`. -/
def State.append (l : List Byte) (s : State) : State :=
  { s with buf := s.buf.writeList s.len.toNat l, len := s.len + BitVec.ofNat 16 l.length }

/-- `n` more bytes fit: not `LEN + n > BUF_CAP` (R48, R173). -/
def State.hasRoom (s : State) (n : Nat) : Bool := s.len.toNat + n ≤ s.cfg.bufCap.val

/-- The last check and the write every appending command shares (R48, R173): `Overflow` with nothing appended, or
`Append(l)` and `respond(OK, 0)`. -/
def appendOrOverflow (l : List Byte) (s : State) : Result :=
  if s.hasRoom l.length then succeed 0 (s.append l) else fail .overflow s

/-- BUF_CLEAR's write (R100): `LEN <- 0`, after which no index of the buffer holds a value (R23). -/
def State.clearBuffer (s : State) : State := { s with len := 0#16, buf := [] }

/-- The reset input (R200): the architectural state takes its reset values; the parameters (R205) and the responses
already given stay, and a command not yet answered gets none (R201). -/
def State.applyReset (s : State) : State :=
  { s with crc := crcSeed, len := 0#16, buf := [], err := false, first := 0#4 }

/-- The port moves on to its remaining events. -/
def State.setPort (rest : List PortEvent) (s : State) : State := { s with port := rest }

/-- A command whose word decodes to no command (R66, R172): no check of a command body runs. -/
def rejectIllegal (_why : Illegal) (s : State) : Result := fail .illegalCommand s

end Sys2Proof.Machine
end

