-- ==== Sys2Proof/Machine/Control.lean ====
section
/-! DEFINITION. The control family (42_control.md): NOP, STAT_READ, STAT_CLEAR. -/

namespace Sys2Proof.Machine

/-- NOP (R151): no effect but its response (R72). -/
def execNop (s : State) : Result := succeed 0 s

/-- STAT_READ (R152): reading does not clear. -/
def execStatRead (s : State) : Result := succeed s.status s

/-- STAT_CLEAR (R153). -/
def execStatClear (s : State) : Result := succeed 0 s.clearErrors

end Sys2Proof.Machine
end

