-- ==== Sys2Proof/Machine/CrcAlgorithm.lean ====
section
/-! DEFINITION. The CRC-16 algorithm, bit for bit as R121 to R123 write it. The rounds of a byte are one atomic effect:
no round counter is architected (R32). -/

namespace Sys2Proof.Machine

/-- One round (R121): if the low bit is set, shift right and XOR with 0xA001, else shift right only. -/
def crcRound (c : Half) : Half := if c.getLsbD 0 then (c >>> 1) ^^^ crcPolynomial else c >>> 1

/-- `n` rounds, one after another. -/
def crcRounds : Nat → Half → Half
  | 0, c => c
  | n + 1, c => crcRounds n (crcRound c)

/-- `absorb(c, b)` (R122): XOR into the low byte, then 8 rounds. -/
def absorb (c : Half) (b : Byte) : Half := crcRounds 8 (c ^^^ b.setWidth 16)

/-- `absorb_list(c, l)` (R123): `absorb` over the list from its first byte to its last. -/
def absorbList (c : Half) (l : List Byte) : Half := l.foldl absorb c

end Sys2Proof.Machine
end

