-- ==== Sys2Proof/Machine/Operands.lean ====
section
/-! DEFINITION. How each command reads its operands (R68, R69), the byte orders of R9 and R41, and the width rules of
the integer, float and text fields (R83, R89, R93). -/

namespace Sys2Proof.Machine

/-- `uint(d)` (R8). -/
def uint (d : Data) : Int := d.toNat

/-- `sint(d)` (R8): two's complement. -/
def sint (d : Data) : Int := if d.getLsbD 63 then (d.toNat : Int) - 2 ^ 64 else d.toNat

/-- ENC_INT's value `v` (R68): `sint(data)` if `S = 1`, else `uint(data)`. -/
def intOperand : Signedness → Data → Int
  | .signed, d => sint d
  | .unsigned, d => uint d

/-- ENC_FLOAT's binary32 pattern `data[31:0]` (R68); `data[63:32]` is ignored. -/
def floatOperand (d : Data) : BitVec 32 := d.extractLsb' 0 32

/-- CRC_BYTE's byte `data[7:0]` (R68); `data[63:8]` is ignored. -/
def byteOperand (d : Data) : Byte := d.extractLsb' 0 8

/-- The representable range of R83, for a width `W >= 1`. -/
def representable : Signedness → Nat → Int → Bool
  | .signed, W, v => -(2 : Int) ^ (8 * W - 1) ≤ v && v ≤ (2 : Int) ^ (8 * W - 1) - 1
  | .unsigned, W, v => 0 ≤ v && v ≤ (2 : Int) ^ (8 * W) - 1

/-- `x' = x mod 2^(8*W)` (R9), in `0 .. 2^(8*W) - 1` for negative `x` too (R8). -/
def reduceTo (W : Nat) (x : Int) : Nat := (x % 2 ^ (8 * W)).toNat

/-- `BE_W(x)` (R9): byte `i` is `floor(x' / 2^(8*(W-1-i))) mod 256`, the most significant byte first. -/
def beBytes (W : Nat) (x : Int) : List Byte :=
  (List.range W).map fun i => BitVec.ofNat 8 (reduceTo W x / 2 ^ (8 * (W - 1 - i)))

/-- `LE2(c)` (R9): the low byte first. -/
def le2 (c : Half) : List Byte := [c.extractLsb' 0 8, c.extractLsb' 8 8]

/-- The four bytes ENC_FLOAT appends (R89): `f` itself, most significant byte first. -/
def floatBytes (f : BitVec 32) : List Byte :=
  [f.extractLsb' 24 8, f.extractLsb' 16 8, f.extractLsb' 8 8, f.extractLsb' 0 8]

/-- The field ENC_TEXT appends (R93, R94): the content, then 0x00 up to the width. -/
def textField (W : Nat) (text : List Byte) : List Byte := text ++ List.replicate (W - text.length) 0x00#8

/-- Some content byte is 0x80 or above (R93, R95). -/
def hasHighByte (text : List Byte) : Bool := text.any fun b => 0x80 ≤ b.toNat

/-- The big-endian number a list of bytes reads back as (R42, R112): `sum_i b_i * 2^(8*(|l|-1-i))`. -/
def beValue : List Byte → Nat
  | [] => 0
  | b :: l => b.toNat * 2 ^ (8 * l.length) + beValue l

/-- The host's big-endian decode of an appended integer field (R112). -/
def beDecode : Signedness → List Byte → Int
  | .unsigned, l => beValue l
  | .signed, l => if (l.headD 0).toNat < 0x80 then beValue l else (beValue l : Int) - 2 ^ (8 * l.length)

end Sys2Proof.Machine
end

