-- ==== Sys2Proof/Machine/CrcUnit.lean ====
section
/-! DEFINITION. The CRC family (41_crc16.md): CRC_INIT, CRC_BYTE, CRC_BUF, CRC_EMIT, CRC_READ. -/

namespace Sys2Proof.Machine

/-- CRC_INIT (R124). -/
def execCrcInit (s : State) : Result := succeed 0 (s.setCrc crcSeed)

/-- CRC_BYTE (R125). -/
def execCrcByte (data : Data) (s : State) : Result := succeed 0 (s.setCrc (absorb s.crc (byteOperand data)))

/-- CRC_BUF (R126): absorbs `BUF[O .. LEN-1]` in rising index order (R43), without seeding. -/
def execCrcBuf (O : Nat) (s : State) : Result :=
  if O > s.len.toNat then fail .outOfRange s
  else
    match s.buf.readList O (s.len.toNat - O) with
    | some l => succeed 0 (s.setCrc (absorbList s.crc l))
    | none => .fault .absentByte

/-- CRC_EMIT (R128): appends `LE2(CRC)`; `CRC` itself is unchanged (R130). -/
def execCrcEmit (s : State) : Result := appendOrOverflow (le2 s.crc) s

/-- CRC_READ (R129). -/
def execCrcRead (s : State) : Result := succeed (s.crc.setWidth 32) s

end Sys2Proof.Machine
end

