-- ==== Sys2Proof/Machine/Encoder.lean ====
section
/-! DEFINITION. The value codec family (40_value_codec.md): ENC_INT, ENC_FLOAT, ENC_TEXT, BUF_CLEAR, BUF_READ. The
checks stand in the order of R178. -/

namespace Sys2Proof.Machine

/-- ENC_INT (R82). -/
def execEncInt (S : Signedness) (T : Policy) (W : Nat) (data : Data) (s : State) : Result :=
  if W = 0 then fail .sizeMismatch s
  else if T = .strict && !representable S W (intOperand S data) then fail .sizeMismatch s
  else appendOrOverflow (beBytes W (intOperand S data)) s

/-- ENC_FLOAT (R89). -/
def execEncFloat (W : Nat) (data : Data) (s : State) : Result :=
  if W ≠ 4 then fail .sizeMismatch s
  else appendOrOverflow (floatBytes (floatOperand data)) s

/-- ENC_TEXT (R93). -/
def execEncText (W : Nat) (text : List Byte) (s : State) : Result :=
  if text.length > W then fail .tooLong s
  else if hasHighByte text && s.cfg.textHigh = .reject then fail .nonAscii s
  else appendOrOverflow (textField W text) s

/-- BUF_CLEAR (R100). -/
def execBufClear (s : State) : Result := succeed 0 s.clearBuffer

/-- BUF_READ (R106). -/
def execBufRead (O : Nat) (s : State) : Result :=
  if O ≥ s.len.toNat then fail .outOfRange s
  else
    match s.buf.read O with
    | some b => succeed (b.setWidth 32) s
    | none => .fault .absentByte

end Sys2Proof.Machine
end

