-- ==== Sys2Proof/Machine/Dispatch.lean ====
section
/-! DEFINITION. The dispatch of the 13 commands (R70), one arm each. -/

namespace Sys2Proof.Machine

def exec (i : Instr) (s : State) : Host.Outcome State Fault Refusal :=
  match i with
  | .nop => Sys2Proof.Machine.execNop s
  | .encInt S T W data => Sys2Proof.Machine.execEncInt S T W data s
  | .encFloat W data => Sys2Proof.Machine.execEncFloat W data s
  | .encText W text => Sys2Proof.Machine.execEncText W text s
  | .bufClear => Sys2Proof.Machine.execBufClear s
  | .crcInit => Sys2Proof.Machine.execCrcInit s
  | .crcByte data => Sys2Proof.Machine.execCrcByte data s
  | .crcBuf O => Sys2Proof.Machine.execCrcBuf O s
  | .crcEmit => Sys2Proof.Machine.execCrcEmit s
  | .crcRead => Sys2Proof.Machine.execCrcRead s
  | .statRead => Sys2Proof.Machine.execStatRead s
  | .statClear => Sys2Proof.Machine.execStatClear s
  | .bufRead O => Sys2Proof.Machine.execBufRead O s

end Sys2Proof.Machine
end

