-- ==== Sys2Proof/Machine/Step.lean ====
section
/-! DEFINITION. One step: the next event at the block's inputs takes effect (R12, R31). The block fetches nothing and
has no program counter (R28): its program is the sequence of commands the host presents. -/

namespace Sys2Proof.Machine

/-- One step. With no event left the block is idle and keeps all state (R188). A command is decoded, checked, performed
and answered in one step (R12). -/
def step (s : State) : Host.Outcome State Fault Refusal :=
  match s.port with
  | [] => .next s
  | .wait :: rest => .next (s.setPort rest)
  | .reset _ :: rest => .next (s.applyReset.setPort rest)
  | .command c :: rest =>
    match decode c with
    | .ok i => exec i (s.setPort rest)
    | .error why => rejectIllegal why (s.setPort rest)

/-- The state with the opcode-table word presented at the command port, ahead of everything else there, with data
operand 0 and an empty text operand (log entry 6). -/
def State.withFetchWord (s : State) (nbits w : Nat) : State :=
  { s with port := .command (tableCommand nbits w) :: s.port }

end Sys2Proof.Machine
end

