-- ==== Sys2Proof/Machine/Pseudo.lean ====
section
/-! DEFINITION. The pseudo-instructions of R76: fixed sequences of commands, each command answered on its own. -/

namespace Sys2Proof.Machine

/-- The pseudo-instructions (R76). -/
inductive Pseudo where
  | crc16 (O : Nat)
  | crc16Append (O : Nat)
  | encU8 (x : Data)
  | encU16 (x : Data)
  | encI32 (x : Data)
  | encF32 (pattern : Data)
deriving DecidableEq, Repr

/-- The expansion of a pseudo-instruction (R76). -/
def Pseudo.expand : Pseudo → List Instr
  | .crc16 O => [.crcInit, .crcBuf O, .crcRead]
  | .crc16Append O => [.crcInit, .crcBuf O, .crcEmit]
  | .encU8 x => [.encInt .unsigned .strict 1 x]
  | .encU16 x => [.encInt .unsigned .strict 2 x]
  | .encI32 x => [.encInt .signed .strict 4 x]
  | .encF32 pattern => [.encFloat 4 pattern]

/-- What the host presents for a pseudo-instruction: as many commands as its expansion (R76). Commands of other hosts
may be accepted in between (R51). -/
def Pseudo.events (p : Pseudo) : List PortEvent := p.expand.map fun i => .command (encode i)

/-- Commands performed one after another (R31): each acts on the state the one before it left (R50), and a command
that failed does not keep the next from running (R170). -/
def execList : List Instr → State → Result
  | [], s => .next s
  | i :: rest, s =>
    match exec i s with
    | .next t => execList rest t
    | .fault f => .fault f
    | .refused r => .refused r

end Sys2Proof.Machine
end

