-- ==== Sys2Proof/Safety.lean ====
section
/-! DEFINITION. What the statements are made of: the invariant of the block's state, and, written out independently of
the operations that produce them, the state of a rejected command, of an answered one, and of one that appended. -/

namespace Sys2Proof.Machine

/-- R22, R23, R47: `LEN` is at most `BUF_CAP`, and the buffer holds a value at every index below `LEN` and at no other
index, listed in rising order. -/
abbrev State.BufferInv (s : State) : Prop :=
  s.len.toNat ≤ s.cfg.bufCap.val ∧ s.buf.map Prod.fst = List.range s.len.toNat

/-- R24: `FIRST` is one of the codes 1 to 6 when `ERR = 1`, and 0 when `ERR = 0`. -/
abbrev State.StickyInv (s : State) : Prop :=
  if s.err then 1 ≤ s.first.toNat ∧ s.first.toNat ≤ 6 else s.first = 0#4

/-- R11, R171: codes 7 to 15 are never produced, and read data is 0 in every failing response. -/
abbrev State.ResponsesInv (s : State) : Prop :=
  ∀ r ∈ s.responses, r.code.toNat ≤ 6 ∧ (r.code ≠ 0#4 → r.rdata = 0#32)

/-- What holds of the block in every state a run reaches. -/
abbrev State.Inv (s : State) : Prop :=
  s.cfg.wf = true ∧ s.BufferInv ∧ s.StickyInv ∧ s.ResponsesInv

/-- The state after a command that answered `(OK, rdata)` and did nothing else. -/
def State.answered (rdata : Word) (s : State) : State := { s with responses := s.responses ++ [⟨0#4, rdata⟩] }

/-- The state after a command that failed with this code (R176): `FIRST` takes the code if `ERR` was 0, `ERR` is 1, the
response is `(code, 0)`, and `CRC`, `LEN` and `BUF` are as before. -/
def State.rejected (code : Code) (s : State) : State :=
  { s with err := true, first := if s.err = true then s.first else code, responses := s.responses ++ [⟨code, 0#32⟩] }

/-- `t` is `s` after a command that appended `l` and answered `(OK, 0)` (R10): the bytes of `l` stand from index `LEN`
on, `LEN` has grown by their number, every byte at another index reads as before, and all else is as before. -/
structure Appended (s t : State) (l : List Byte) : Prop where
  crc : t.crc = s.crc
  err : t.err = s.err
  first : t.first = s.first
  cfg : t.cfg = s.cfg
  port : t.port = s.port
  responses : t.responses = s.responses ++ [⟨0#4, 0#32⟩]
  len : t.len.toNat = s.len.toNat + l.length
  stored : ∀ k, k < l.length → t.buf.read (s.len.toNat + k) = l[k]?
  others : ∀ a, a < s.len.toNat ∨ s.len.toNat + l.length ≤ a → t.buf.read a = s.buf.read a

/-- `l` is the content of the buffer at the `l.length` indices from `i` on. -/
def Memory.Holds (m : Memory) (i : Nat) (l : List Byte) : Prop := ∀ k, k < l.length → m.read (i + k) = l[k]?

/-- The range of values that fit `W` bytes in strict mode, for `W >= 1` (R83). -/
def InRange (S : Signedness) (W : Nat) (v : Int) : Prop :=
  match S with
  | .signed => -(2 ^ (8 * W - 1)) ≤ v ∧ v ≤ 2 ^ (8 * W - 1) - 1
  | .unsigned => 0 ≤ v ∧ v ≤ 2 ^ (8 * W) - 1

/-- The command's word decodes to no instruction (R66), and every step that accepts it raises `IllegalCommand`, code 3,
with no other effect than that of a failing command (R172). -/
def IsIllegal (c : Command) : Prop :=
  (∃ why, decode c = .error why) ∧
  ∀ (s : State) (rest : List PortEvent), s.port = .command c :: rest →
    step s = .next (({ s with port := rest } : State).rejected 3#4)

/-- `t` answers one command more than `s`, with this code and read data. -/
def AnsweredWith (s t : State) (code : Code) (rdata : Word) : Prop := t.responses = s.responses ++ [⟨code, rdata⟩]

/-- The architectural state (R20) is the same in both. -/
def SameArchitecturalState (s t : State) : Prop :=
  t.crc = s.crc ∧ t.len = s.len ∧ t.buf = s.buf ∧ t.err = s.err ∧ t.first = s.first

/-- The architectural state is that of R200: `CRC` 0xFFFF, `LEN`, `ERR` and `FIRST` 0, and no value in the buffer. -/
def InResetState (s : State) : Prop :=
  s.crc = 0xFFFF#16 ∧ s.len = 0#16 ∧ (∀ a, s.buf.read a = none) ∧ s.err = false ∧ s.first = 0#4

/-- A run of `n` steps that ends in a state: it meets neither a fault nor a refusal. -/
def SafeRun (n : Nat) (s : State) : Prop := ∃ t : State, Sys2Proof.core.run n s = .next t

end Sys2Proof.Machine
end

