-- ==== Sys2Proof/Certificates/Slice0/Obligations.lean ====
section
/-! DEFINITION. The statements for the provers. `State.rejected`, `State.answered`, `Appended`, `InRange` and the other
words they use are written out in Safety.lean, independently of the operations the meanings call. -/

open Sys2Proof Sys2Proof.Machine

/-! ## Encoding -/

/-- Decoding the command word the encoder writes for a well-formed instruction gives the instruction back, every
operand at every value (R60, R66, R75). -/
def Obligations.DecodeOfEncodeIsTheInstruction : Prop :=
  ∀ i : Instr, i.wellFormed = true → decode (encode i) = .ok i

/-- A decoded instruction is well-formed, its own word is the word it was decoded from, and it carries the operands of
its command: no bit of a legal word is dropped. -/
def Obligations.DecodedInstructionEncodesToItsWord : Prop :=
  ∀ (c : Command) (i : Instr), decode c = .ok i →
    i.wellFormed = true ∧ i.word = c.word ∧ (encode i).data = (if i.opcode ∈ [0x1, 0x2, 0x6] then c.data else 0) ∧
      (encode i).text = (if i.opcode = 0x3 then c.text else [])

/-- R66: a word decodes to the mnemonic of the unique row of the opcode table with `(word & mask) = match`, no two rows
having the same `OP`; a word of no row is illegal: it decodes to none, and a step that accepts it raises
`IllegalCommand`. -/
def Obligations.DecodeFollowsTheOpcodeTable : Prop :=
  (∀ r ∈ opcodeTable, ∀ r' ∈ opcodeTable, r ≠ r' → opField r.pattern ≠ opField r'.pattern) ∧
  (∀ c : Command, ∀ r ∈ opcodeTable, c.word &&& r.mask = r.pattern →
    (∃ i, decode c = .ok i ∧ i.mnemonic = r.mnemonic) ∧
    (∀ r' ∈ opcodeTable, c.word &&& r'.mask = r'.pattern → r' = r)) ∧
  (∀ c : Command, (∀ r ∈ opcodeTable, c.word &&& r.mask ≠ r.pattern) → IsIllegal c)

/-- R67, R172: a word with opcode 0xD, 0xE or 0xF, or with a bit set that the command of its opcode does not use,
raises `IllegalCommand` and records nothing but the code. -/
def Obligations.ReservedEncodingsRaiseIllegalCommand : Prop :=
  ∀ c : Command, (0xD ≤ (opField c.word).toNat ∨
    ∃ r ∈ opcodeTable, opField c.word = opField r.pattern ∧ c.word &&& r.mask ≠ r.pattern) → IsIllegal c

/-- Words written out from R60's field table decode to the instructions they stand for (the examples of R75 and
95_test_vectors.md section 2.7). -/
def Obligations.WrittenOutWordsDecode : Prop :=
  decode ⟨0x00000000#32, 0, []⟩ = .ok .nop ∧
  decode ⟨0x00000201#32, 0x200, []⟩ = .ok (.encInt .unsigned .strict 2 0x200) ∧
  decode ⟨0x00000131#32, 128, []⟩ = .ok (.encInt .signed .truncating 1 128) ∧
  decode ⟨0x00000402#32, 0x3F800000, []⟩ = .ok (.encFloat 4 0x3F800000) ∧
  decode ⟨0x00000803#32, 0, [0x41, 0x42]⟩ = .ok (.encText 8 [0x41, 0x42]) ∧
  decode ⟨0x00000004#32, 0, []⟩ = .ok .bufClear ∧
  decode ⟨0xFFFF0007#32, 0, []⟩ = .ok (.crcBuf 65535) ∧
  decode ⟨0x0005000C#32, 0, []⟩ = .ok (.bufRead 5) ∧
  decode ⟨0x0000001C#32, 0, []⟩ = .error .reservedBits ∧
  decode ⟨0xFFFF000F#32, 0, []⟩ = .error .reservedOpcode

/-- A step at which the command port accepts a command that decodes to `i` is `i`'s execution on the state with that
event taken from the port (R12, R31). The port list is the model's own (log entry 3). -/
def Obligations.StepRunsTheDecodedCommand : Prop :=
  ∀ (s : State) (c : Command) (rest : List PortEvent) (i : Instr), s.port = .command c :: rest →
    decode c = .ok i → step s = exec i { s with port := rest }

/-! ## Control -/

/-- R151: NOP in any state responds `(OK, 0)` and leaves the state unchanged; its word is 0 exactly, and `data` and
`text` do not matter. -/
def Obligations.NopOnlyResponds : Prop :=
  (∀ s : State, exec .nop s = .next (s.answered 0)) ∧
  (∀ c : Command, opField c.word = 0x0#4 →
    (c.word = 0x00000000#32 → decode c = .ok .nop) ∧ (c.word ≠ 0x00000000#32 → IsIllegal c))

/-- R152: STAT_READ responds with `LEN` in bits 31:16, `FIRST` in bits 7:4, `ERR` in bit 0 and 0 in the reserved bits,
and clears nothing; with `ERR = 0`, in a state that meets the sticky invariant, bits 7:4 are 0. -/
def Obligations.StatReadReturnsStatus : Prop :=
  (∀ s : State, ∃ r : Word, exec .statRead s = .next (s.answered r) ∧
    r = (s.len.setWidth 32 <<< 16) ||| (s.first.setWidth 32 <<< 4) ||| (if s.err = true then 1#32 else 0#32) ∧
    r.extractLsb' 16 16 = s.len ∧ r.extractLsb' 8 8 = 0#8 ∧ r.extractLsb' 4 4 = s.first ∧ r.extractLsb' 1 3 = 0#3 ∧
    r.getLsbD 0 = s.err ∧ (s.StickyInv → s.err = false → r.extractLsb' 4 4 = 0#4)) ∧
  (∀ c : Command, opField c.word = 0xA#4 →
    (c.word = 0x0000000A#32 → decode c = .ok .statRead) ∧ (c.word ≠ 0x0000000A#32 → IsIllegal c))

/-- R153: STAT_CLEAR clears `ERR` and `FIRST` and changes neither `LEN`, `BUF` nor `CRC`; with a reserved bit set the
command fails and so sets `ERR`. -/
def Obligations.StatClearClearsTheStickyState : Prop :=
  (∀ s : State, exec .statClear s = .next (({ s with err := false, first := 0#4 } : State).answered 0)) ∧
  (∀ c : Command, opField c.word = 0xB#4 →
    (c.word = 0x0000000B#32 → decode c = .ok .statClear) ∧ (c.word ≠ 0x0000000B#32 → IsIllegal c)) ∧
  (∀ (s t : State) (c : Command) (rest : List PortEvent), s.port = .command c :: rest → opField c.word = 0xB#4 →
    c.word ≠ 0x0000000B#32 → step s = .next t → t.err = true)

/-! ## The CRC unit -/

/-- R121, R122: the round and the absorption of a byte as the spec writes them, with its worked values. -/
def Obligations.CrcRoundAndAbsorb : Prop :=
  (∀ c : Half, crcRound c = if c.getLsbD 0 = true then (c >>> 1) ^^^ 0xA001#16 else c >>> 1) ∧
  (∀ (c : Half) (b : Byte), absorb c b =
    crcRound (crcRound (crcRound (crcRound (crcRound (crcRound (crcRound (crcRound (c ^^^ b.setWidth 16))))))))) ∧
  (∀ (c : Half) (b : Byte), (c ^^^ b.setWidth 16).extractLsb' 8 8 = c.extractLsb' 8 8) ∧
  crcRound 0x0001#16 = 0xA001#16 ∧ crcRound 0x0000#16 = 0x0000#16 ∧ crcRound 0xFFFF#16 = 0xDFFE#16 ∧
  crcRound 0x8000#16 = 0x4000#16 ∧ absorb 0xFFFF#16 0x00#8 = 0x40BF#16 ∧
  ((List.range 9).map fun n => crcRounds n 0xFFFF#16) =
    [0xFFFF#16, 0xDFFE#16, 0x6FFF#16, 0x97FE#16, 0x4BFF#16, 0x85FE#16, 0x42FF#16, 0x817E#16, 0x40BF#16]

/-- R131: `crc16([0,1,2])` is 0x91F1, through 0x40BF and 0x70C0. -/
def Obligations.CrcFixture : Prop :=
  absorb 0xFFFF#16 0x00#8 = 0x40BF#16 ∧ absorb 0x40BF#16 0x01#8 = 0x70C0#16 ∧ absorb 0x70C0#16 0x02#8 = 0x91F1#16 ∧
  absorbList 0xFFFF#16 [0x00#8, 0x01#8, 0x02#8] = 0x91F1#16

/-- R124: CRC_INIT loads 0xFFFF and does not touch `BUF` or `LEN`. -/
def Obligations.CrcInitLoadsTheSeed : Prop :=
  (∀ s : State, exec .crcInit s = .next (({ s with crc := 0xFFFF#16 } : State).answered 0)) ∧
  (∀ c : Command, opField c.word = 0x5#4 →
    (c.word = 0x00000005#32 → decode c = .ok .crcInit) ∧ (c.word ≠ 0x00000005#32 → IsIllegal c))

/-- R125: CRC_BYTE absorbs `data[7:0]`; `data[63:8]` is ignored. -/
def Obligations.CrcByteAbsorbsTheLowByte : Prop :=
  (∀ (data : Data) (s : State), exec (.crcByte data) s =
    .next (({ s with crc := absorb s.crc (data.extractLsb' 0 8) } : State).answered 0)) ∧
  (∀ c : Command, opField c.word = 0x6#4 →
    (c.word = 0x00000006#32 → decode c = .ok (.crcByte c.data)) ∧ (c.word ≠ 0x00000006#32 → IsIllegal c)) ∧
  (∀ s : State, s.crc = 0xFFFF#16 → ∃ t, exec (.crcByte 0x00) s = .next t ∧ t.crc = 0x40BF#16)

/-- R126: CRC_BUF raises `OutOfRange` when `O > LEN`; otherwise, in a state that meets the buffer invariant, it absorbs
`BUF[O .. LEN-1]` in rising order into whatever `CRC` holds, and changes only `CRC`. -/
def Obligations.CrcBufAbsorbsFromTheOffset : Prop :=
  (∀ (O : Nat) (s : State), s.len.toNat < O → exec (.crcBuf O) s = .next (s.rejected 5#4)) ∧
  (∀ (O : Nat) (s : State), s.BufferInv → O ≤ s.len.toNat →
    ∃ l : List Byte, l.length = s.len.toNat - O ∧ s.buf.Holds O l ∧
      exec (.crcBuf O) s = .next (({ s with crc := absorbList s.crc l } : State).answered 0)) ∧
  (∀ s : State, s.BufferInv → exec (.crcBuf s.len.toNat) s = .next (s.answered 0)) ∧
  absorbList 0xFFFF#16 [127#8, 3#8, 4#8, 140#8, 161#8, 0#8, 0#8] = 0x461F#16 ∧
  (∀ c : Command, opField c.word = 0x7#4 →
    (bits c.word 4 12 = 0#12 → decode c = .ok (.crcBuf (c.word.extractLsb' 16 16).toNat)) ∧
    (bits c.word 4 12 ≠ 0#12 → IsIllegal c))

/-- R128: CRC_EMIT appends `[CRC[7:0], CRC[15:8]]` without changing `CRC`, or raises `Overflow` when
`LEN + 2 > BUF_CAP` and appends neither byte. -/
def Obligations.CrcEmitAppendsTheTrailer : Prop :=
  (∀ s : State, s.cfg.bufCap.val < s.len.toNat + 2 → exec .crcEmit s = .next (s.rejected 4#4)) ∧
  (∀ s : State, s.len.toNat + 2 ≤ s.cfg.bufCap.val →
    ∃ t, exec .crcEmit s = .next t ∧ Appended s t [s.crc.extractLsb' 0 8, s.crc.extractLsb' 8 8]) ∧
  (∀ c : Command, opField c.word = 0x8#4 →
    (c.word = 0x00000008#32 → decode c = .ok .crcEmit) ∧ (c.word ≠ 0x00000008#32 → IsIllegal c))

/-- R129: CRC_READ responds `(OK, zext_32(CRC))` and changes no state. -/
def Obligations.CrcReadReturnsTheCrc : Prop :=
  (∀ s : State, exec .crcRead s = .next (s.answered (s.crc.setWidth 32)) ∧ (s.crc.setWidth 32).extractLsb' 16 16 = 0#16) ∧
  (∀ c : Command, opField c.word = 0x9#4 →
    (c.word = 0x00000009#32 → decode c = .ok .crcRead) ∧ (c.word ≠ 0x00000009#32 → IsIllegal c))

/-- The residue law (R132, which the spec derives): a message followed by its CRC, low byte first, absorbs to 0. -/
def Obligations.CrcResidueIsZero : Prop :=
  ∀ m : List Byte,
    absorbList 0xFFFF#16 (m ++ [(absorbList 0xFFFF#16 m).extractLsb' 0 8, (absorbList 0xFFFF#16 m).extractLsb' 8 8]) = 0#16

/-- Two byte lists that differ in one byte have different CRCs, whatever the running value they start from. A
consequence of R121 to R123. -/
def Obligations.CrcTellsOneChangedByte : Prop :=
  ∀ (c : Half) (l m : List Byte) (b b' : Byte), b ≠ b' → absorbList c (l ++ b :: m) ≠ absorbList c (l ++ b' :: m)

/-- The two ways of R127: one CRC_BUF, and one CRC_BYTE for each of the same bytes in order, leave the same `CRC`. -/
def Obligations.CrcBufAgreesWithCrcBytes : Prop :=
  ∀ (O : Nat) (s : State), s.BufferInv → O ≤ s.len.toNat →
    ∃ (l : List Byte) (t u : State), l.length = s.len.toNat - O ∧ s.buf.Holds O l ∧ exec (.crcBuf O) s = .next t ∧
      execList (l.map fun b => .crcByte (b.setWidth 64)) s = .next u ∧ t.crc = u.crc ∧ u.buf = s.buf ∧ u.len = s.len

/-! ## The encoder unit -/

/-- R9: byte `i` of `BE_W(x)` is `floor(x' / 2^(8*(W-1-i))) mod 256` with `x' = x mod 2^(8*W)`, the most significant
byte first; `LE2(c)` is the low byte, then the high byte. -/
def Obligations.ByteOrdersOfIntegers : Prop :=
  (∀ (W : Nat) (x : Int), 1 ≤ W → (beBytes W x).length = W ∧
    ∀ i, i < W → ((beBytes W x).map BitVec.toNat)[i]? =
      some (((x % 2 ^ (8 * W)) / 2 ^ (8 * (W - 1 - i)) % 256).toNat)) ∧
  (∀ c : Half, le2 c = [c.extractLsb' 0 8, c.extractLsb' 8 8])

/-- R82, with the range of R83: what ENC_INT does for every width, signedness, policy and value, and its encoding. -/
def Obligations.EncIntOutcomes : Prop :=
  (∀ (S : Signedness) (T : Policy) (W : Nat) (data : Data) (s : State) (v : Int),
    v = (match S with
      | .signed => if data.getLsbD 63 = true then (data.toNat : Int) - 2 ^ 64 else data.toNat
      | .unsigned => (data.toNat : Int)) →
    (W = 0 → exec (.encInt S T W data) s = .next (s.rejected 1#4)) ∧
    (W ≠ 0 → T = .strict → ¬InRange S W v → exec (.encInt S T W data) s = .next (s.rejected 1#4)) ∧
    (W ≠ 0 → (T = .strict → InRange S W v) → s.cfg.bufCap.val < s.len.toNat + W →
      exec (.encInt S T W data) s = .next (s.rejected 4#4)) ∧
    (W ≠ 0 → (T = .strict → InRange S W v) → s.len.toNat + W ≤ s.cfg.bufCap.val →
      ∃ t, exec (.encInt S T W data) s = .next t ∧ Appended s t (beBytes W v))) ∧
  (∀ c : Command, opField c.word = 0x1#4 →
    (bits c.word 6 2 = 0#2 → bits c.word 16 16 = 0#16 → decode c = .ok (.encInt
      (if c.word.getLsbD 4 = true then .signed else .unsigned) (if c.word.getLsbD 5 = true then .truncating else .strict)
      (c.word.extractLsb' 8 8).toNat c.data)) ∧
    (bits c.word 6 2 ≠ 0#2 ∨ bits c.word 16 16 ≠ 0#16 → IsIllegal c))

/-- R83, which the spec derives: from width 8 up every value the operand can carry is representable, so strict mode
never raises `SizeMismatch`. -/
def Obligations.EightBytesHoldEveryOperand : Prop :=
  ∀ (S : Signedness) (W : Nat) (data : Data), 8 ≤ W → InRange S W (intOperand S data) ∧
    representable S W (intOperand S data) = true

/-- R111, which the spec derives: on a value that fits, strict and truncating mode do the same. -/
def Obligations.PoliciesAgreeOnRepresentableValues : Prop :=
  ∀ (S : Signedness) (W : Nat) (data : Data) (s : State), 1 ≤ W → InRange S W (intOperand S data) →
    exec (.encInt S .strict W data) s = exec (.encInt S .truncating W data) s

/-- R112, which the spec derives: what ENC_INT appends for a value that fits decodes, big-endian, to that value. -/
def Obligations.EncodedIntegerDecodesToItsValue : Prop :=
  ∀ (S : Signedness) (T : Policy) (W : Nat) (data : Data) (s : State), 1 ≤ W → InRange S W (intOperand S data) →
    s.len.toNat + W ≤ s.cfg.bufCap.val →
    ∃ (t : State) (l : List Byte), exec (.encInt S T W data) s = .next t ∧ l.length = W ∧
      t.buf.Holds s.len.toNat l ∧ beDecode S l = intOperand S data

/-- R84, R86, which the spec derives: up to width 8 the bytes appended are the low bytes of the operand, most
significant first, whichever signedness is named. -/
def Obligations.TruncationKeepsTheLowBytes : Prop :=
  ∀ (S : Signedness) (W : Nat) (data : Data), W ≤ 8 →
    beBytes W (intOperand S data) = (List.range W).map fun i => data.extractLsb' (8 * (W - 1 - i)) 8

/-- R85, which the spec derives: above width 8, `W - 8` bytes stand before the 8 bytes of the value, 0xFF for a
negative value and 0x00 otherwise. -/
def Obligations.WideIntegersAreExtendedAtTheFront : Prop :=
  ∀ (S : Signedness) (W : Nat) (data : Data), 8 ≤ W →
    beBytes W (intOperand S data) =
      List.replicate (W - 8) (if intOperand S data < 0 then 0xFF#8 else 0x00#8) ++ beBytes 8 (intOperand S data)

/-- R88, R89: ENC_FLOAT appends the four bytes of `data[31:0]`, most significant first, for `W = 4` only. -/
def Obligations.EncFloatOutcomes : Prop :=
  (∀ (W : Nat) (data : Data) (s : State),
    (W ≠ 4 → exec (.encFloat W data) s = .next (s.rejected 1#4)) ∧
    (W = 4 → s.cfg.bufCap.val < s.len.toNat + 4 → exec (.encFloat W data) s = .next (s.rejected 4#4)) ∧
    (W = 4 → s.len.toNat + 4 ≤ s.cfg.bufCap.val → ∃ t, exec (.encFloat W data) s = .next t ∧
      Appended s t [data.extractLsb' 24 8, data.extractLsb' 16 8, data.extractLsb' 8 8, data.extractLsb' 0 8])) ∧
  (∀ c : Command, opField c.word = 0x2#4 →
    (bits c.word 4 4 = 0#4 → bits c.word 16 16 = 0#16 →
      decode c = .ok (.encFloat (c.word.extractLsb' 8 8).toNat c.data)) ∧
    (bits c.word 4 4 ≠ 0#4 ∨ bits c.word 16 16 ≠ 0#16 → IsIllegal c))

/-- R92, R93, R94, R95: ENC_TEXT's three errors in their order, and what it appends: the content unchanged, then 0x00
up to the width. -/
def Obligations.EncTextOutcomes : Prop :=
  (∀ (W : Nat) (text : List Byte) (s : State),
    (W < text.length → exec (.encText W text) s = .next (s.rejected 2#4)) ∧
    (text.length ≤ W → s.cfg.textHigh = .reject → (∃ b ∈ text, 0x80 ≤ b.toNat) →
      exec (.encText W text) s = .next (s.rejected 6#4)) ∧
    (text.length ≤ W → (s.cfg.textHigh = .reject → ∀ b ∈ text, b.toNat < 0x80) →
      s.cfg.bufCap.val < s.len.toNat + W → exec (.encText W text) s = .next (s.rejected 4#4)) ∧
    (text.length ≤ W → (s.cfg.textHigh = .reject → ∀ b ∈ text, b.toNat < 0x80) →
      s.len.toNat + W ≤ s.cfg.bufCap.val → ∃ t, exec (.encText W text) s = .next t ∧
        Appended s t (text ++ List.replicate (W - text.length) 0x00#8))) ∧
  (∀ c : Command, opField c.word = 0x3#4 →
    (bits c.word 4 4 = 0#4 → bits c.word 16 16 = 0#16 →
      decode c = .ok (.encText (c.word.extractLsb' 8 8).toNat c.text)) ∧
    (bits c.word 4 4 ≠ 0#4 ∨ bits c.word 16 16 ≠ 0#16 → IsIllegal c))

/-- R100: BUF_CLEAR sets `LEN` to 0, leaves no byte readable, and changes neither `ERR`, `FIRST` nor `CRC`. -/
def Obligations.BufClearEmptiesTheBuffer : Prop :=
  (∀ s : State, ∃ t, exec .bufClear s = .next t ∧ t.len = 0#16 ∧ (∀ a, t.buf.read a = none) ∧ t.crc = s.crc ∧
    t.err = s.err ∧ t.first = s.first ∧ t.cfg = s.cfg ∧ t.port = s.port ∧ AnsweredWith s t 0#4 0#32) ∧
  (∀ c : Command, opField c.word = 0x4#4 →
    (c.word = 0x00000004#32 → decode c = .ok .bufClear) ∧ (c.word ≠ 0x00000004#32 → IsIllegal c))

/-- R106: BUF_READ raises `OutOfRange` when `O >= LEN`; otherwise, in a state that meets the buffer invariant, it
responds with the byte at index `O` and changes no state. -/
def Obligations.BufReadReturnsTheByte : Prop :=
  (∀ (O : Nat) (s : State), s.len.toNat ≤ O → exec (.bufRead O) s = .next (s.rejected 5#4)) ∧
  (∀ (O : Nat) (s : State), s.BufferInv → O < s.len.toNat →
    ∃ b : Byte, s.buf.read O = some b ∧ exec (.bufRead O) s = .next (s.answered (b.setWidth 32))) ∧
  (∀ c : Command, opField c.word = 0xC#4 →
    (bits c.word 4 12 = 0#12 → decode c = .ok (.bufRead (c.word.extractLsb' 16 16).toNat)) ∧
    (bits c.word 4 12 ≠ 0#12 → IsIllegal c))

/-! ## The whole machine -/

/-- R42, which the spec derives, and R211: the trailer CRC_EMIT appends at `LEN` reads back, two BUF_READs after it, as
`BUF[k] + 256 * BUF[k+1] = CRC`. -/
def Obligations.CrcTrailerReadsBack : Prop :=
  ∀ s : State, s.len.toNat + 2 ≤ s.cfg.bufCap.val →
    ∃ (t u v : State) (lo hi : Word), exec .crcEmit s = .next t ∧ exec (.bufRead s.len.toNat) t = .next u ∧
      AnsweredWith t u 0#4 lo ∧ exec (.bufRead (s.len.toNat + 1)) u = .next v ∧ AnsweredWith u v 0#4 hi ∧
      lo.toNat + 256 * hi.toNat = s.crc.toNat

/-- R10, R22: no command but BUF_CLEAR makes `LEN` smaller or changes a byte below it. -/
def Obligations.BytesBelowLenAreKept : Prop :=
  ∀ (i : Instr) (s t : State), i ≠ .bufClear → exec i s = .next t →
    s.len.toNat ≤ t.len.toNat ∧ ∀ a, a < s.len.toNat → t.buf.read a = s.buf.read a

/-- R21: no command but CRC_INIT, CRC_BYTE and CRC_BUF changes `CRC`, nor does any of these when it fails. -/
def Obligations.OnlyCrcCommandsWriteCrc : Prop :=
  ∀ (i : Instr) (s t : State), exec i s = .next t → t.crc ≠ s.crc →
    (i = .crcInit ∨ (∃ data, i = .crcByte data) ∨ ∃ O, i = .crcBuf O) ∧ AnsweredWith s t 0#4 0#32

/-- R26, R176: a command that is accepted gets one response; with a code other than `OK` the state after it is
`State.rejected` of that code, and with `OK` only STAT_CLEAR touches `ERR` or `FIRST`. -/
def Obligations.FailingCommandChangesOnlyTheStickyState : Prop :=
  ∀ (s t : State) (c : Command) (rest : List PortEvent), s.port = .command c :: rest → step s = .next t →
    ∃ r : Response, t.responses = s.responses ++ [r] ∧
      (r.code ≠ 0#4 → t = ({ s with port := rest } : State).rejected r.code) ∧
      (r.code = 0#4 → decode c ≠ .ok .statClear → t.err = s.err ∧ t.first = s.first)

/-- R25: a command that responds with a code other than `OK` sets `ERR`; `ERR`, once set, is cleared by nothing but an
accepted STAT_CLEAR and reset. -/
def Obligations.ErrStaysSetUntilCleared : Prop :=
  (∀ (s t : State) (c : Command) (rest : List PortEvent) (code : Code) (rdata : Word), s.port = .command c :: rest →
    step s = .next t → AnsweredWith s t code rdata → code ≠ 0#4 → t.err = true) ∧
  (∀ s t : State, s.err = true → step s = .next t → t.err = false →
    (∃ c rest, s.port = .command c :: rest ∧ decode c = .ok .statClear) ∨ ∃ out rest, s.port = .reset out :: rest)

/-- R179, which the spec derives: a command that fails, presented again, fails with the same code and changes nothing
but the responses. -/
def Obligations.FailureRepeats : Prop :=
  ∀ (s t u : State) (c : Command) (rest : List PortEvent) (code : Code) (rdata : Word),
    s.port = .command c :: .command c :: rest → step s = .next t → AnsweredWith s t code rdata → code ≠ 0#4 →
    step t = .next u → AnsweredWith t u code 0#32 ∧ SameArchitecturalState t u ∧ u.cfg = t.cfg

/-- R68, R69: bits of `data` and a text operand that a command does not read have no effect on any state or
response. -/
def Obligations.UnreadOperandsHaveNoEffect : Prop :=
  ∀ (s : State) (c c' : Command) (rest : List PortEvent), c.word = c'.word →
    (opField c.word = 0x1#4 → c.data = c'.data) →
    (opField c.word = 0x2#4 → c.data.extractLsb' 0 32 = c'.data.extractLsb' 0 32) →
    (opField c.word = 0x6#4 → c.data.extractLsb' 0 8 = c'.data.extractLsb' 0 8) →
    (opField c.word = 0x3#4 → c.text = c'.text) →
    step { s with port := .command c :: rest } = step { s with port := .command c' :: rest }

/-- R205: no step changes the parameters. -/
def Obligations.ParametersNeverChange : Prop :=
  ∀ s t : State, step s = .next t → t.cfg = s.cfg

/-- R200, R202: the state after power-on, for every value of the parameters, and after the reset input, which leaves
the parameters as they are. That the reset is an event taken from a list of what is to come (`t.port = rest`, log
entry 3) and that the responses already given stay (`t.responses = s.responses`, log entry 4) is the model's
choice, no rule of the spec. -/
def Obligations.ResetState : Prop :=
  (∀ cfg : Config, InResetState (State.resetWith cfg) ∧ (State.resetWith cfg).cfg = cfg) ∧
  (∀ (s : State) (out : Option Command) (rest : List PortEvent), s.port = .reset out :: rest →
    ∃ t, step s = .next t ∧ InResetState t ∧ SameArchitecturalState (State.resetWith s.cfg) t ∧ t.cfg = s.cfg ∧
      t.port = rest ∧ t.responses = s.responses)

/-- R201: a reset that lands after a command has taken effect, and one that loses the command, leave the same
architectural state; the lost command gets no response. That the responses already given stay (log entry 4), the
list of what is to come (log entry 3) and a reset event that names the lost command (log entry 9) are the model's. -/
def Obligations.ResetLosesTheOutstandingCommand : Prop :=
  ∀ (s t u v : State) (c : Command) (rest : List PortEvent),
    step { s with port := .command c :: .reset none :: rest } = .next t → step t = .next u →
    step { s with port := .reset (some c) :: rest } = .next v →
    SameArchitecturalState u v ∧ u.port = v.port ∧ v.responses = s.responses ∧
      u.responses.length = s.responses.length + 1

/-- R188, R210: while the port holds a command off, or none is presented, the block keeps all its state, and what is to
come is neither dropped nor reordered. The port list is the model's own (log entry 3). -/
def Obligations.WaitingKeepsAllState : Prop :=
  (∀ s : State, s.port = [] → step s = .next s) ∧
  (∀ (s : State) (rest : List PortEvent), s.port = .wait :: rest → step s = .next { s with port := rest })

/-- The reset state meets the invariant, for every value of the parameters R6 allows. -/
def Obligations.ResetMeetsTheInvariant : Prop :=
  ∀ cfg : Config, cfg.wf = true → (State.resetWith cfg).Inv

/-- Every step keeps the invariant: `LEN` at most `BUF_CAP` with exactly the bytes below it holding values, listed in
rising order (R22, R23, R47), `FIRST` legal (R24), every response legal (R11, R171). -/
def Obligations.InvariantKeptByEveryStep : Prop :=
  ∀ s t : State, s.Inv → step s = .next t → t.Inv

/-- Every step keeps the buffer's canonical form, in every state, the invariant or not. -/
def Obligations.BufferStaysCanonical : Prop :=
  ∀ s t : State, s.buf.wf = true → step s = .next t → t.buf.wf = true

/-- The block never stops: from a state that meets the invariant, a run of any length over any commands, waits and
resets meets neither a fault nor a refusal (R170: every error is a response, and the next command runs). -/
def Obligations.NoRunStops : Prop :=
  ∀ (n : Nat) (s : State), s.Inv → SafeRun n s

/-- The model's one fault (log entry 5) needs a byte below `LEN` that holds no value; no instruction is refused. -/
def Obligations.FaultOnlyOnAnAbsentByte : Prop :=
  ∀ (i : Instr) (s : State), (∃ t, exec i s = .next t) ∨
    ∃ a, a < s.len.toNat ∧ s.buf.read a = none ∧ exec i s = .fault .absentByte

/-- The pseudo-instruction `CRC16 O` (R76): in a state that meets the buffer invariant it gives the source's
`crc16(bytes)` over `BUF[O .. LEN-1]` in the read data of its last response. -/
def Obligations.PseudoCrc16ReadsTheCrcOfTheBuffer : Prop :=
  ∀ (O : Nat) (s : State), s.BufferInv → O ≤ s.len.toNat →
    ∃ (l : List Byte) (t : State), l.length = s.len.toNat - O ∧ s.buf.Holds O l ∧
      execList (Pseudo.crc16 O).expand s = .next t ∧
      t.responses = s.responses ++ [⟨0#4, 0#32⟩, ⟨0#4, 0#32⟩, ⟨0#4, (absorbList 0xFFFF#16 l).setWidth 32⟩]

/-- The receiver's check (R132, which the spec derives): after `CRC16_APPEND O` (R76), CRC_INIT and CRC_BUF from the
same index find `CRC = 0`, in every state that meets the buffer invariant and has room for the trailer. -/
def Obligations.ReceiverFindsZeroResidue : Prop :=
  ∀ (O : Nat) (s : State), s.BufferInv → O ≤ s.len.toNat → s.len.toNat + 2 ≤ s.cfg.bufCap.val →
    ∃ t, execList ((Pseudo.crc16Append O).expand ++ [.crcInit, .crcBuf O]) s = .next t ∧ t.crc = 0#16 ∧
      t.len.toNat = s.len.toNat + 2
end

