-- ==== Sys2Proof/Laws/Decode.lean ====
section
/-! SUPPORT. The command word as a number and its fields read back: what every proof about encodings rests on. -/

namespace Sys2Proof

/-- Fields that fit do not overlap: the word of R75 is their weighted sum. -/
theorem commandWord_toNat {op s t w o : Nat} (hop : op < 16) (hs : s < 2) (ht : t < 2) (hw : w < 256)
    (ho : o < 65536) : (commandWord op s t w o).toNat = op + 16 * s + 32 * t + 256 * w + 65536 * o := by
  have e1 : op ||| s <<< 4 = s <<< 4 + op := by
    rw [Nat.or_comm]; exact (Nat.shiftLeft_add_eq_or_of_lt (by omega) s).symm
  have e2 : (s <<< 4 + op) ||| t <<< 5 = t <<< 5 + (s <<< 4 + op) := by
    rw [Nat.or_comm]; exact (Nat.shiftLeft_add_eq_or_of_lt (by rw [Nat.shiftLeft_eq]; omega) t).symm
  have e3 : (t <<< 5 + (s <<< 4 + op)) ||| w <<< 8 = w <<< 8 + (t <<< 5 + (s <<< 4 + op)) := by
    rw [Nat.or_comm]
    exact (Nat.shiftLeft_add_eq_or_of_lt (by rw [Nat.shiftLeft_eq, Nat.shiftLeft_eq]; omega) w).symm
  have e4 : (w <<< 8 + (t <<< 5 + (s <<< 4 + op))) ||| o <<< 16
      = o <<< 16 + (w <<< 8 + (t <<< 5 + (s <<< 4 + op))) := by
    rw [Nat.or_comm]
    exact (Nat.shiftLeft_add_eq_or_of_lt
      (by rw [Nat.shiftLeft_eq, Nat.shiftLeft_eq, Nat.shiftLeft_eq]; omega) o).symm
  have m1 : op % 2 ^ 32 = op := Nat.mod_eq_of_lt (by omega)
  have m2 : (s % 2 ^ 32) <<< 4 % 2 ^ 32 = s <<< 4 := by rw [Nat.shiftLeft_eq, Nat.shiftLeft_eq]; omega
  have m3 : (t % 2 ^ 32) <<< 5 % 2 ^ 32 = t <<< 5 := by rw [Nat.shiftLeft_eq, Nat.shiftLeft_eq]; omega
  have m4 : (w % 2 ^ 32) <<< 8 % 2 ^ 32 = w <<< 8 := by rw [Nat.shiftLeft_eq, Nat.shiftLeft_eq]; omega
  have m5 : (o % 2 ^ 32) <<< 16 % 2 ^ 32 = o <<< 16 := by rw [Nat.shiftLeft_eq, Nat.shiftLeft_eq]; omega
  simp only [commandWord, BitVec.toNat_or, BitVec.toNat_shiftLeft, BitVec.toNat_ofNat, m1, m2, m3, m4, m5, e1, e2, e3,
    e4]
  simp only [Nat.shiftLeft_eq]
  omega

/-- A field of a word as a number. -/
theorem bits_toNat (v : Word) (lo len : Nat) : (bits v lo len).toNat = v.toNat / 2 ^ lo % 2 ^ len := by
  simp [bits, BitVec.extractLsb'_toNat, Nat.shiftRight_eq_div_pow]

/-- A field reads `n` exactly when the number it stands for does. -/
theorem bits_eq_iff (v : Word) (lo len : Nat) (x : BitVec len) :
    bits v lo len = x ↔ v.toNat / 2 ^ lo % 2 ^ len = x.toNat := by
  rw [← bits_toNat, BitVec.toNat_inj]

theorem signBit_lt (S : Signedness) : signBit S < 2 := by cases S <;> decide

theorem policyBit_lt (T : Policy) : policyBit T < 2 := by cases T <;> decide

theorem widthFits_iff (W : Nat) : widthFits W = true ↔ W < 256 := by simp [widthFits]

theorem offsetFits_iff (O : Nat) : offsetFits O = true ↔ O < 65536 := by simp [offsetFits]

theorem ifUnusedZero_eq_ok {u : Bool} {i j : Instr} : ifUnusedZero u i = .ok j ↔ u = true ∧ i = j := by
  unfold ifUnusedZero; split <;> simp_all

theorem ifUnusedZero_eq_error {u : Bool} {i : Instr} {why : Illegal} :
    ifUnusedZero u i = .error why ↔ u = false ∧ why = .reservedBits := by
  unfold ifUnusedZero; split <;> simp_all [eq_comm]

end Sys2Proof
end

