-- ==== Sys2Proof/Laws/Memory.lean ====
section
/-! SUPPORT. What the buffer's primitives do: a read after a write, the canonical form every write keeps, and what a
read of several bytes finds. -/

namespace Sys2Proof.Machine

theorem Memory.read_write_same (m : Memory) (a : Nat) (b : Byte) : (m.write a b).read a = some b := by
  induction m with
  | nil => simp [Memory.write, Memory.read]
  | cons x m ih =>
    obtain ⟨a', b'⟩ := x
    unfold Memory.write
    split
    · simp [Memory.read]
    · split
      · simp [Memory.read]
      · next hne => simp [Memory.read, hne, ih]

theorem Memory.read_write_other (m : Memory) {a a' : Nat} (b : Byte) (h : a' ≠ a) :
    (m.write a b).read a' = m.read a' := by
  induction m with
  | nil => simp [Memory.write, Memory.read, h]
  | cons x m ih =>
    obtain ⟨a₀, b₀⟩ := x
    unfold Memory.write
    split
    · simp [Memory.read, h]
    · split
      · next heq => subst heq; simp [Memory.read, h]
      · simp [Memory.read, ih]

theorem Memory.read_write (m : Memory) (a a' : Nat) (b : Byte) :
    (m.write a b).read a' = if a' = a then some b else m.read a' := by
  split
  · next h => subst h; exact Memory.read_write_same m _ b
  · next h => exact Memory.read_write_other m b h

/-- Every index of the buffer after a write is the written one or one it had before. -/
theorem Memory.mem_write {m : Memory} {a : Nat} {b : Byte} {x : Host.Cell} (h : x ∈ m.write a b) :
    x.1 = a ∨ ∃ y ∈ m, x.1 = y.1 := by
  induction m with
  | nil => simp_all [Memory.write]
  | cons y m ih =>
    obtain ⟨a', b'⟩ := y
    unfold Memory.write at h
    split at h
    · rcases List.mem_cons.mp h with rfl | h
      · exact .inl rfl
      · exact .inr ⟨x, h, rfl⟩
    · split at h
      · rcases List.mem_cons.mp h with rfl | h
        · exact .inl rfl
        · exact .inr ⟨x, List.mem_cons_of_mem _ h, rfl⟩
      · rcases List.mem_cons.mp h with rfl | h
        · exact .inr ⟨_, List.mem_cons_self, rfl⟩
        · rcases ih h with h | ⟨y, hy, he⟩
          · exact .inl h
          · exact .inr ⟨y, List.mem_cons_of_mem _ hy, he⟩

theorem Memory.write_wf {m : Memory} (a : Nat) (b : Byte) (h : m.wf = true) : (m.write a b).wf = true := by
  simp only [Memory.wf, decide_eq_true_eq] at *
  induction m with
  | nil => simp [Memory.write]
  | cons x m ih =>
    obtain ⟨a', b'⟩ := x
    obtain ⟨hx, hm⟩ := List.pairwise_cons.mp h
    unfold Memory.write
    split
    · next hlt =>
      refine List.pairwise_cons.mpr ⟨fun y hy => ?_, h⟩
      rcases List.mem_cons.mp hy with rfl | hy
      · exact hlt
      · exact Nat.lt_trans hlt (hx y hy)
    · split
      · next heq => subst heq; exact List.pairwise_cons.mpr ⟨hx, hm⟩
      · next hge hne =>
        refine List.pairwise_cons.mpr ⟨fun y hy => ?_, ih hm⟩
        rcases Memory.mem_write hy with h' | ⟨z, hz, h'⟩
        · simp only at *; omega
        · have := hx z hz; simp only at *; omega

theorem Memory.writeList_wf {m : Memory} (l : List Byte) (a : Nat) (h : m.wf = true) :
    (m.writeList a l).wf = true := by
  induction l generalizing m a with
  | nil => exact h
  | cons b l ih => exact ih _ (Memory.write_wf a b h)

/-- A write of a list leaves every index outside it alone. -/
theorem Memory.read_writeList_other (m : Memory) (l : List Byte) {a a' : Nat} (h : a' < a ∨ a + l.length ≤ a') :
    (m.writeList a l).read a' = m.read a' := by
  induction l generalizing m a with
  | nil => rfl
  | cons b l ih =>
    simp only [List.length_cons] at h
    rw [Memory.writeList, ih _ (by omega), Memory.read_write_other _ _ (by omega)]

/-- After a write of a list, byte `k` of the list reads at index `a + k`. -/
theorem Memory.read_writeList_at (m : Memory) (l : List Byte) (a k : Nat) (h : k < l.length) :
    (m.writeList a l).read (a + k) = l[k]? := by
  induction l generalizing m a k with
  | nil => simp at h
  | cons b l ih =>
    rw [Memory.writeList]
    cases k with
    | zero =>
      rw [Memory.read_writeList_other _ _ (by omega)]
      simpa using Memory.read_write_same m a b
    | succ k =>
      have := ih (m.write a b) (a + 1) k (by simpa using h)
      rw [show a + (k + 1) = a + 1 + k by omega, this]
      rfl

/-- `MemRead` answers exactly when every byte asked for holds a value, and answers those values. -/
theorem Memory.readList_eq_some {m : Memory} {i n : Nat} {l : List Byte} :
    m.readList i n = some l ↔ l.length = n ∧ m.Holds i l := by
  induction n generalizing i l with
  | zero =>
    simp only [Memory.readList, Option.some.injEq]
    constructor
    · rintro rfl; exact ⟨rfl, fun k hk => absurd hk (by simp)⟩
    · rintro ⟨h, -⟩; exact (List.length_eq_zero_iff.mp h).symm
  | succ n ih =>
    rw [Memory.readList]
    constructor
    · intro h
      split at h
      · next b l' hb hl' =>
        obtain ⟨hlen, hh⟩ := ih.mp hl'
        cases h
        refine ⟨by simp [hlen], fun k hk => ?_⟩
        cases k with
        | zero => simpa using hb
        | succ k =>
          have := hh k (by simpa using hk)
          rw [show i + (k + 1) = i + 1 + k by omega, this]
          rfl
      · cases h
    · rintro ⟨hlen, hh⟩
      cases l with
      | nil => simp at hlen
      | cons b l =>
        have hb : m.read i = some b := by simpa using hh 0 (by simp)
        have hl : m.readList (i + 1) n = some l := by
          refine ih.mpr ⟨by simpa using hlen, fun k hk => ?_⟩
          have := hh (k + 1) (by simpa using hk)
          rw [show i + 1 + k = i + (k + 1) by omega, this]
          rfl
        simp [hb, hl]

/-- `MemRead` fails only where one of the bytes asked for holds no value. -/
theorem Memory.absent_of_readList_none {m : Memory} {i n : Nat} (h : m.readList i n = none) :
    ∃ a, a < i + n ∧ m.read a = none := by
  induction n generalizing i with
  | zero => simp [Memory.readList] at h
  | succ n ih =>
    rw [Memory.readList] at h
    cases hb : m.read i with
    | none => exact ⟨i, by omega, hb⟩
    | some b =>
      cases hl : m.readList (i + 1) n with
      | none =>
        obtain ⟨a, ha, hr⟩ := ih hl
        exact ⟨a, by omega, hr⟩
      | some l => simp [hb, hl] at h

/-- A buffer whose indices are `0 .. n-1` holds a value at every index below `n`. -/
theorem Memory.read_of_range {m : Memory} {n a : Nat} (h : m.map Prod.fst = List.range n) (ha : a < n) :
    ∃ b, m.read a = some b := by
  have hmem : a ∈ m.map Prod.fst := by rw [h]; simpa using ha
  clear h
  induction m with
  | nil => simp at hmem
  | cons x m ih =>
    obtain ⟨a', b⟩ := x
    unfold Memory.read
    split
    · exact ⟨b, rfl⟩
    · next hne =>
      simp only [List.map_cons, List.mem_cons] at hmem
      exact ih (hmem.resolve_left hne)

/-- A buffer holds no value at an index it does not list. -/
theorem Memory.read_eq_none {m : Memory} {a : Nat} (h : a ∉ m.map Prod.fst) : m.read a = none := by
  induction m with
  | nil => rfl
  | cons x m ih =>
    obtain ⟨a', b⟩ := x
    simp only [List.map_cons, List.mem_cons, not_or] at h
    simp [Memory.read, h.1, ih h.2]

/-- A write above every listed index goes at the end. -/
theorem Memory.write_at_end {m : Memory} {a : Nat} (b : Byte) (h : ∀ x ∈ m, x.1 < a) : m.write a b = m ++ [(a, b)] := by
  induction m with
  | nil => rfl
  | cons x m ih =>
    obtain ⟨a', b'⟩ := x
    have hx : a' < a := h _ List.mem_cons_self
    rw [Memory.write, if_neg (by omega), if_neg (by omega), ih fun y hy => h y (List.mem_cons_of_mem _ hy)]
    rfl

/-- Appending at `LEN` to a buffer whose indices are `0 .. LEN-1` keeps that form. -/
theorem Memory.writeList_range {m : Memory} {n : Nat} (l : List Byte) (h : m.map Prod.fst = List.range n) :
    (m.writeList n l).map Prod.fst = List.range (n + l.length) := by
  induction l generalizing m n with
  | nil => simpa [Memory.writeList] using h
  | cons b l ih =>
    have hlt : ∀ x ∈ m, x.1 < n := fun x hx => by
      have : x.1 ∈ m.map Prod.fst := List.mem_map_of_mem hx
      rw [h] at this
      simpa using this
    rw [Memory.writeList, List.length_cons, show n + (l.length + 1) = n + 1 + l.length by omega]
    exact ih (by rw [Memory.write_at_end b hlt, List.map_append, h, List.range_succ]; rfl)

/-- A buffer whose indices are `0 .. n-1` is in canonical form. -/
theorem Memory.wf_of_range {m : Memory} {n : Nat} (h : m.map Prod.fst = List.range n) : m.wf = true := by
  simp only [Memory.wf, decide_eq_true_eq]
  rw [← List.pairwise_map (f := Prod.fst) (R := (· < ·)), h]
  exact List.pairwise_lt_range

theorem resetWith_buf_wf (cfg : Config) : (State.resetWith cfg).buf.wf = true := by simp [State.resetWith, Memory.wf]

theorem reset_buf_wf : State.reset.buf.wf = true := resetWith_buf_wf _

end Sys2Proof.Machine
end

