-- ==== Sys2Proof/Laws/State.lean ====
section
/-! SUPPORT. One lemma for each field of the state under each named update, so that no proof unfolds a record update. -/

namespace Sys2Proof.Machine

variable (s : State)

@[simp] theorem State.respond_crc (code : Code) (rdata : Word) : (s.respond code rdata).crc = s.crc := rfl
@[simp] theorem State.respond_len (code : Code) (rdata : Word) : (s.respond code rdata).len = s.len := rfl
@[simp] theorem State.respond_buf (code : Code) (rdata : Word) : (s.respond code rdata).buf = s.buf := rfl
@[simp] theorem State.respond_err (code : Code) (rdata : Word) : (s.respond code rdata).err = s.err := rfl
@[simp] theorem State.respond_first (code : Code) (rdata : Word) : (s.respond code rdata).first = s.first := rfl
@[simp] theorem State.respond_cfg (code : Code) (rdata : Word) : (s.respond code rdata).cfg = s.cfg := rfl
@[simp] theorem State.respond_port (code : Code) (rdata : Word) : (s.respond code rdata).port = s.port := rfl
@[simp] theorem State.respond_responses (code : Code) (rdata : Word) : (s.respond code rdata).responses = s.responses ++ [{ code := code, rdata := rdata }] := rfl

@[simp] theorem State.recordError_crc (e : ErrorKind) : (s.recordError e).crc = s.crc := rfl
@[simp] theorem State.recordError_len (e : ErrorKind) : (s.recordError e).len = s.len := rfl
@[simp] theorem State.recordError_buf (e : ErrorKind) : (s.recordError e).buf = s.buf := rfl
@[simp] theorem State.recordError_err (e : ErrorKind) : (s.recordError e).err = true := rfl
@[simp] theorem State.recordError_first (e : ErrorKind) : (s.recordError e).first = if s.err then s.first else e.code := rfl
@[simp] theorem State.recordError_cfg (e : ErrorKind) : (s.recordError e).cfg = s.cfg := rfl
@[simp] theorem State.recordError_port (e : ErrorKind) : (s.recordError e).port = s.port := rfl
@[simp] theorem State.recordError_responses (e : ErrorKind) : (s.recordError e).responses = s.responses := rfl

@[simp] theorem State.clearErrors_crc : (s.clearErrors).crc = s.crc := rfl
@[simp] theorem State.clearErrors_len : (s.clearErrors).len = s.len := rfl
@[simp] theorem State.clearErrors_buf : (s.clearErrors).buf = s.buf := rfl
@[simp] theorem State.clearErrors_err : (s.clearErrors).err = false := rfl
@[simp] theorem State.clearErrors_first : (s.clearErrors).first = 0#4 := rfl
@[simp] theorem State.clearErrors_cfg : (s.clearErrors).cfg = s.cfg := rfl
@[simp] theorem State.clearErrors_port : (s.clearErrors).port = s.port := rfl
@[simp] theorem State.clearErrors_responses : (s.clearErrors).responses = s.responses := rfl

@[simp] theorem State.raise_crc (e : ErrorKind) : (s.raise e).crc = s.crc := rfl
@[simp] theorem State.raise_len (e : ErrorKind) : (s.raise e).len = s.len := rfl
@[simp] theorem State.raise_buf (e : ErrorKind) : (s.raise e).buf = s.buf := rfl
@[simp] theorem State.raise_err (e : ErrorKind) : (s.raise e).err = true := rfl
@[simp] theorem State.raise_first (e : ErrorKind) : (s.raise e).first = if s.err then s.first else e.code := rfl
@[simp] theorem State.raise_cfg (e : ErrorKind) : (s.raise e).cfg = s.cfg := rfl
@[simp] theorem State.raise_port (e : ErrorKind) : (s.raise e).port = s.port := rfl
@[simp] theorem State.raise_responses (e : ErrorKind) : (s.raise e).responses = s.responses ++ [{ code := e.code, rdata := 0 }] := rfl

@[simp] theorem State.setCrc_crc (c : Half) : (s.setCrc c).crc = c := rfl
@[simp] theorem State.setCrc_len (c : Half) : (s.setCrc c).len = s.len := rfl
@[simp] theorem State.setCrc_buf (c : Half) : (s.setCrc c).buf = s.buf := rfl
@[simp] theorem State.setCrc_err (c : Half) : (s.setCrc c).err = s.err := rfl
@[simp] theorem State.setCrc_first (c : Half) : (s.setCrc c).first = s.first := rfl
@[simp] theorem State.setCrc_cfg (c : Half) : (s.setCrc c).cfg = s.cfg := rfl
@[simp] theorem State.setCrc_port (c : Half) : (s.setCrc c).port = s.port := rfl
@[simp] theorem State.setCrc_responses (c : Half) : (s.setCrc c).responses = s.responses := rfl

@[simp] theorem State.append_crc (l : List Byte) : (s.append l).crc = s.crc := rfl
@[simp] theorem State.append_len (l : List Byte) : (s.append l).len = s.len + BitVec.ofNat 16 l.length := rfl
@[simp] theorem State.append_buf (l : List Byte) : (s.append l).buf = s.buf.writeList s.len.toNat l := rfl
@[simp] theorem State.append_err (l : List Byte) : (s.append l).err = s.err := rfl
@[simp] theorem State.append_first (l : List Byte) : (s.append l).first = s.first := rfl
@[simp] theorem State.append_cfg (l : List Byte) : (s.append l).cfg = s.cfg := rfl
@[simp] theorem State.append_port (l : List Byte) : (s.append l).port = s.port := rfl
@[simp] theorem State.append_responses (l : List Byte) : (s.append l).responses = s.responses := rfl

@[simp] theorem State.clearBuffer_crc : (s.clearBuffer).crc = s.crc := rfl
@[simp] theorem State.clearBuffer_len : (s.clearBuffer).len = 0#16 := rfl
@[simp] theorem State.clearBuffer_buf : (s.clearBuffer).buf = [] := rfl
@[simp] theorem State.clearBuffer_err : (s.clearBuffer).err = s.err := rfl
@[simp] theorem State.clearBuffer_first : (s.clearBuffer).first = s.first := rfl
@[simp] theorem State.clearBuffer_cfg : (s.clearBuffer).cfg = s.cfg := rfl
@[simp] theorem State.clearBuffer_port : (s.clearBuffer).port = s.port := rfl
@[simp] theorem State.clearBuffer_responses : (s.clearBuffer).responses = s.responses := rfl

@[simp] theorem State.applyReset_crc : (s.applyReset).crc = crcSeed := rfl
@[simp] theorem State.applyReset_len : (s.applyReset).len = 0#16 := rfl
@[simp] theorem State.applyReset_buf : (s.applyReset).buf = [] := rfl
@[simp] theorem State.applyReset_err : (s.applyReset).err = false := rfl
@[simp] theorem State.applyReset_first : (s.applyReset).first = 0#4 := rfl
@[simp] theorem State.applyReset_cfg : (s.applyReset).cfg = s.cfg := rfl
@[simp] theorem State.applyReset_port : (s.applyReset).port = s.port := rfl
@[simp] theorem State.applyReset_responses : (s.applyReset).responses = s.responses := rfl

@[simp] theorem State.setPort_crc (rest : List PortEvent) : (s.setPort rest).crc = s.crc := rfl
@[simp] theorem State.setPort_len (rest : List PortEvent) : (s.setPort rest).len = s.len := rfl
@[simp] theorem State.setPort_buf (rest : List PortEvent) : (s.setPort rest).buf = s.buf := rfl
@[simp] theorem State.setPort_err (rest : List PortEvent) : (s.setPort rest).err = s.err := rfl
@[simp] theorem State.setPort_first (rest : List PortEvent) : (s.setPort rest).first = s.first := rfl
@[simp] theorem State.setPort_cfg (rest : List PortEvent) : (s.setPort rest).cfg = s.cfg := rfl
@[simp] theorem State.setPort_port (rest : List PortEvent) : (s.setPort rest).port = rest := rfl
@[simp] theorem State.setPort_responses (rest : List PortEvent) : (s.setPort rest).responses = s.responses := rfl

end Sys2Proof.Machine
end

