-- ==== Sys2Proof/Laws/Ops.lean ====
section
/-! SUPPORT. One lemma for each shared operation, saying once everything it can do, and one for each meaning. Proofs
cite these instead of unfolding the operations. -/

namespace Sys2Proof.Machine

theorem State.respond_ok (rdata : Word) (s : State) : s.respond codeOk rdata = s.answered rdata := rfl

/-- What a failing command leaves is the state R176 describes. -/
theorem State.raise_eq (e : ErrorKind) (s : State) : s.raise e = s.rejected e.code := rfl

theorem fail_eq (e : ErrorKind) (s : State) : fail e s = .next (s.rejected e.code) := rfl

theorem succeed_eq (rdata : Word) (s : State) : succeed rdata s = .next (s.answered rdata) := rfl

theorem rejectIllegal_eq (why : Illegal) (s : State) : rejectIllegal why s = .next (s.rejected 3#4) := rfl

theorem State.hasRoom_iff (s : State) (n : Nat) : s.hasRoom n = true ↔ s.len.toNat + n ≤ s.cfg.bufCap.val := by
  simp [State.hasRoom]

/-- With room, `LEN` after an append does not wrap: `BUF_CAP` is at most 65535. -/
theorem State.append_len_toNat {s : State} {l : List Byte} (h : s.hasRoom l.length = true) :
    (s.append l).len.toNat = s.len.toNat + l.length := by
  have := s.cfg.bufCap.isLt
  rw [State.hasRoom_iff] at h
  simp only [State.append_len, BitVec.toNat_add, BitVec.toNat_ofNat]
  omega

/-- The appending operation, with room: R10's `Append` and the response `(OK, 0)`. -/
theorem State.append_answered {s : State} {l : List Byte} (h : s.hasRoom l.length = true) :
    Appended s ((s.append l).answered 0) l where
  crc := rfl
  err := rfl
  first := rfl
  cfg := rfl
  port := rfl
  responses := rfl
  len := State.append_len_toNat h
  stored := fun k hk => Memory.read_writeList_at s.buf l s.len.toNat k hk
  others := fun _ ha => Memory.read_writeList_other s.buf l ha

theorem appendOrOverflow_room {l : List Byte} {s : State} (h : s.len.toNat + l.length ≤ s.cfg.bufCap.val) :
    appendOrOverflow l s = .next ((s.append l).answered 0) := by
  rw [appendOrOverflow, if_pos (s.hasRoom_iff _ |>.mpr h), succeed_eq]

theorem appendOrOverflow_full {l : List Byte} {s : State} (h : s.cfg.bufCap.val < s.len.toNat + l.length) :
    appendOrOverflow l s = .next (s.rejected 4#4) := by
  rw [appendOrOverflow, if_neg (by rw [State.hasRoom_iff]; omega), fail_eq]
  rfl

/-- The appending operation always answers: it appends and succeeds, or it changes nothing and fails. -/
theorem appendOrOverflow_cases {l : List Byte} {s : State} {o : Result} (h : appendOrOverflow l s = o) :
    (s.hasRoom l.length = true ∧ o = .next ((s.append l).answered 0)) ∨
      (s.hasRoom l.length = false ∧ o = .next (s.rejected 4#4)) := by
  unfold appendOrOverflow at h
  split at h
  · next hr => exact .inl ⟨hr, h.symm⟩
  · next hr => exact .inr ⟨by simpa using hr, h.symm⟩

@[simp] theorem beBytes_length (W : Nat) (x : Int) : (beBytes W x).length = W := by simp [beBytes]

@[simp] theorem le2_length (c : Half) : (le2 c).length = 2 := rfl

@[simp] theorem floatBytes_length (f : BitVec 32) : (floatBytes f).length = 4 := rfl

theorem textField_length {W : Nat} {text : List Byte} (h : text.length ≤ W) : (textField W text).length = W := by
  simp [textField]; omega

/-- When an instruction fails, and with which error: the checks of each command in the order of R178. -/
inductive Fails (s : State) : Instr → ErrorKind → Prop where
  | intZeroWidth (S : Signedness) (T : Policy) (data : Data) : Fails s (.encInt S T 0 data) .sizeMismatch
  | intRange (S : Signedness) (W : Nat) (data : Data) (hW : W ≠ 0)
      (hv : representable S W (intOperand S data) = false) : Fails s (.encInt S .strict W data) .sizeMismatch
  | intOverflow (S : Signedness) (T : Policy) (W : Nat) (data : Data) (hW : W ≠ 0)
      (hv : T = .strict → representable S W (intOperand S data) = true) (hr : s.hasRoom W = false) :
      Fails s (.encInt S T W data) .overflow
  | floatWidth (W : Nat) (data : Data) (hW : W ≠ 4) : Fails s (.encFloat W data) .sizeMismatch
  | floatOverflow (data : Data) (hr : s.hasRoom 4 = false) : Fails s (.encFloat 4 data) .overflow
  | textTooLong (W : Nat) (text : List Byte) (hL : W < text.length) : Fails s (.encText W text) .tooLong
  | textNonAscii (W : Nat) (text : List Byte) (hL : text.length ≤ W) (hb : hasHighByte text = true)
      (hp : s.cfg.textHigh = .reject) : Fails s (.encText W text) .nonAscii
  | textOverflow (W : Nat) (text : List Byte) (hL : text.length ≤ W)
      (hb : s.cfg.textHigh = .reject → hasHighByte text = false) (hr : s.hasRoom W = false) :
      Fails s (.encText W text) .overflow
  | crcBufRange (O : Nat) (hO : s.len.toNat < O) : Fails s (.crcBuf O) .outOfRange
  | emitOverflow (hr : s.hasRoom 2 = false) : Fails s .crcEmit .overflow
  | bufReadRange (O : Nat) (hO : s.len.toNat ≤ O) : Fails s (.bufRead O) .outOfRange

/-- When an instruction succeeds, the state it writes (before its response) and the read data it responds with. -/
inductive Succeeds (s : State) : Instr → State → Word → Prop where
  | nop : Succeeds s .nop s 0
  | encInt (S : Signedness) (T : Policy) (W : Nat) (data : Data) (hW : W ≠ 0)
      (hv : T = .strict → representable S W (intOperand S data) = true) (hr : s.hasRoom W = true) :
      Succeeds s (.encInt S T W data) (s.append (beBytes W (intOperand S data))) 0
  | encFloat (data : Data) (hr : s.hasRoom 4 = true) :
      Succeeds s (.encFloat 4 data) (s.append (floatBytes (floatOperand data))) 0
  | encText (W : Nat) (text : List Byte) (hL : text.length ≤ W)
      (hb : s.cfg.textHigh = .reject → hasHighByte text = false) (hr : s.hasRoom W = true) :
      Succeeds s (.encText W text) (s.append (textField W text)) 0
  | bufClear : Succeeds s .bufClear s.clearBuffer 0
  | crcInit : Succeeds s .crcInit (s.setCrc crcSeed) 0
  | crcByte (data : Data) : Succeeds s (.crcByte data) (s.setCrc (absorb s.crc (byteOperand data))) 0
  | crcBuf (O : Nat) (l : List Byte) (hO : O ≤ s.len.toNat) (hlen : l.length = s.len.toNat - O)
      (hl : s.buf.Holds O l) : Succeeds s (.crcBuf O) (s.setCrc (absorbList s.crc l)) 0
  | crcEmit (hr : s.hasRoom 2 = true) : Succeeds s .crcEmit (s.append (le2 s.crc)) 0
  | crcRead : Succeeds s .crcRead s (s.crc.setWidth 32)
  | statRead : Succeeds s .statRead s s.status
  | statClear : Succeeds s .statClear s.clearErrors 0
  | bufRead (O : Nat) (b : Byte) (hO : O < s.len.toNat) (hb : s.buf.read O = some b) :
      Succeeds s (.bufRead O) s (b.setWidth 32)

/-- Everything `exec` can answer: a failing command, a succeeding one, or the fault on an absent byte. -/
theorem exec_cases (i : Instr) (s : State) :
    (∃ e, Fails s i e ∧ exec i s = .next (s.rejected e.code)) ∨
      (∃ t rdata, Succeeds s i t rdata ∧ exec i s = .next (t.answered rdata)) ∨
      (∃ a, a < s.len.toNat ∧ s.buf.read a = none ∧ exec i s = .fault .absentByte) := by
  have app : ∀ l n, l.length = n →
      (s.hasRoom n = true ∧ appendOrOverflow l s = .next ((s.append l).answered 0)) ∨
        (s.hasRoom n = false ∧ appendOrOverflow l s = .next (s.rejected 4#4)) := by
    rintro l _ rfl
    exact appendOrOverflow_cases rfl
  cases i with
  | nop => exact .inr (.inl ⟨s, 0, .nop, rfl⟩)
  | encInt S T W data =>
    simp only [exec, execEncInt]
    split
    · next hW => subst hW; exact .inl ⟨_, .intZeroWidth S T data, rfl⟩
    · next hW =>
      split
      · next hv =>
        simp only [Bool.and_eq_true, decide_eq_true_eq, Bool.not_eq_true'] at hv
        obtain ⟨rfl, hv⟩ := hv
        exact .inl ⟨_, .intRange S W data hW hv, rfl⟩
      · next hv =>
        have hv' : T = .strict → representable S W (intOperand S data) = true := by
          intro hT; simpa [hT] using hv
        rcases app (beBytes W (intOperand S data)) W (by simp) with ⟨hr, h⟩ | ⟨hr, h⟩
        · exact .inr (.inl ⟨_, _, .encInt S T W data hW hv' hr, h⟩)
        · exact .inl ⟨.overflow, .intOverflow S T W data hW hv' hr, h⟩
  | encFloat W data =>
    simp only [exec, execEncFloat]
    split
    · next hW => exact .inl ⟨_, .floatWidth W data hW, rfl⟩
    · next hW =>
      obtain rfl : W = 4 := by omega
      rcases app (floatBytes (floatOperand data)) 4 rfl with ⟨hr, h⟩ | ⟨hr, h⟩
      · exact .inr (.inl ⟨_, _, .encFloat data hr, h⟩)
      · exact .inl ⟨.overflow, .floatOverflow data hr, h⟩
  | encText W text =>
    simp only [exec, execEncText]
    split
    · next hL => exact .inl ⟨_, .textTooLong W text hL, rfl⟩
    · next hL =>
      have hL' : text.length ≤ W := by omega
      split
      · next hb =>
        simp only [Bool.and_eq_true, decide_eq_true_eq] at hb
        exact .inl ⟨_, .textNonAscii W text hL' hb.1 hb.2, rfl⟩
      · next hb =>
        have hb' : s.cfg.textHigh = .reject → hasHighByte text = false := by
          intro hp; simpa [hp] using hb
        rcases app (textField W text) W (textField_length hL') with ⟨hr, h⟩ | ⟨hr, h⟩
        · exact .inr (.inl ⟨_, _, .encText W text hL' hb' hr, h⟩)
        · exact .inl ⟨.overflow, .textOverflow W text hL' hb' hr, h⟩
  | bufClear => exact .inr (.inl ⟨_, 0, .bufClear, rfl⟩)
  | crcInit => exact .inr (.inl ⟨_, 0, .crcInit, rfl⟩)
  | crcByte data => exact .inr (.inl ⟨_, 0, .crcByte data, rfl⟩)
  | crcBuf O =>
    simp only [exec, execCrcBuf]
    split
    · next hO => exact .inl ⟨_, .crcBufRange O hO, rfl⟩
    · next hO =>
      split
      · next l hl =>
        obtain ⟨hlen, hh⟩ := Memory.readList_eq_some.mp hl
        exact .inr (.inl ⟨_, 0, .crcBuf O l (by omega) hlen hh, rfl⟩)
      · next hnone =>
        obtain ⟨a, ha, hr⟩ := Memory.absent_of_readList_none hnone
        exact .inr (.inr ⟨a, by omega, hr, rfl⟩)
  | crcEmit =>
    rcases app (le2 s.crc) 2 rfl with ⟨hr, h⟩ | ⟨hr, h⟩
    · exact .inr (.inl ⟨_, _, .crcEmit hr, h⟩)
    · exact .inl ⟨.overflow, .emitOverflow hr, h⟩
  | crcRead => exact .inr (.inl ⟨s, _, .crcRead, rfl⟩)
  | statRead => exact .inr (.inl ⟨s, _, .statRead, rfl⟩)
  | statClear => exact .inr (.inl ⟨_, 0, .statClear, rfl⟩)
  | bufRead O =>
    simp only [exec, execBufRead]
    split
    · next hO => exact .inl ⟨_, .bufReadRange O hO, rfl⟩
    · next hO =>
      split
      · next b hb => exact .inr (.inl ⟨s, _, .bufRead O b (by omega) hb, rfl⟩)
      · next hnone => exact .inr (.inr ⟨O, by omega, hnone, rfl⟩)

/-- What an instruction that answers a next state has done. -/
theorem exec_next {i : Instr} {s t : State} (h : exec i s = .next t) :
    (∃ e, Fails s i e ∧ t = s.rejected e.code) ∨ (∃ u rdata, Succeeds s i u rdata ∧ t = u.answered rdata) := by
  rcases exec_cases i s with ⟨e, he, h'⟩ | ⟨u, r, hu, h'⟩ | ⟨-, -, -, h'⟩ <;> rw [h'] at h <;> cases h
  · exact .inl ⟨e, he, rfl⟩
  · exact .inr ⟨u, r, hu, rfl⟩

/-- Whether an instruction fails, and how, depends on `LEN` and the parameters alone (R179). -/
theorem Fails.congr {i : Instr} {e : ErrorKind} {s u : State} (h : Fails s i e) (hl : u.len = s.len)
    (hc : u.cfg = s.cfg) : Fails u i e := by
  have hr : ∀ n, u.hasRoom n = s.hasRoom n := fun n => by simp [State.hasRoom, hl, hc]
  cases h with
  | intZeroWidth S T data => exact .intZeroWidth S T data
  | intRange S W data hW hv => exact .intRange S W data hW hv
  | intOverflow S T W data hW hv h => exact .intOverflow S T W data hW hv (by rw [hr, h])
  | floatWidth W data hW => exact .floatWidth W data hW
  | floatOverflow data h => exact .floatOverflow data (by rw [hr, h])
  | textTooLong W text hL => exact .textTooLong W text hL
  | textNonAscii W text hL hb hp => exact .textNonAscii W text hL hb (by rw [hc, hp])
  | textOverflow W text hL hb h => exact .textOverflow W text hL (by rw [hc]; exact hb) (by rw [hr, h])
  | crcBufRange O hO => exact .crcBufRange O (by rw [hl]; exact hO)
  | emitOverflow h => exact .emitOverflow (by rw [hr, h])
  | bufReadRange O hO => exact .bufReadRange O (by rw [hl]; exact hO)

/-- Where a byte holds a value, BUF_READ answers it. -/
theorem execBufRead_of_read {O : Nat} {b : Byte} {s : State} (hO : O < s.len.toNat) (hb : s.buf.read O = some b) :
    exec (.bufRead O) s = .next (s.answered (b.setWidth 32)) := by
  simp only [exec, execBufRead, if_neg (show ¬O ≥ s.len.toNat by omega), hb, succeed_eq]

/-- Where every byte from `O` to `LEN` holds a value, CRC_BUF absorbs them. -/
theorem execCrcBuf_of_holds {O : Nat} {l : List Byte} {s : State} (hO : O ≤ s.len.toNat)
    (hlen : l.length = s.len.toNat - O) (hl : s.buf.Holds O l) :
    exec (.crcBuf O) s = .next ((s.setCrc (absorbList s.crc l)).answered 0) := by
  simp only [exec, execCrcBuf, if_neg (show ¬O > s.len.toNat by omega), Memory.readList_eq_some.mpr ⟨hlen, hl⟩,
    succeed_eq]

/-- In a state that meets the buffer invariant, the bytes from an index up to `LEN` are all there. -/
theorem State.BufferInv.exists_holds {s : State} (h : s.BufferInv) {O : Nat} (hO : O ≤ s.len.toNat) :
    ∃ l : List Byte, l.length = s.len.toNat - O ∧ s.buf.Holds O l := by
  cases hl : s.buf.readList O (s.len.toNat - O) with
  | some l => exact ⟨l, Memory.readList_eq_some.mp hl⟩
  | none =>
    obtain ⟨a, ha, hr⟩ := Memory.absent_of_readList_none hl
    obtain ⟨b, hb⟩ := Memory.read_of_range h.2 (a := a) (by omega)
    simp [hb] at hr

/-- A sequence of commands: the first, then the rest on the state it left. -/
theorem execList_cons {i : Instr} {rest : List Instr} {s t : State} (h : exec i s = .next t) :
    execList (i :: rest) s = execList rest t := by
  simp only [execList, h]

/-- A run whose first step answers a state is the run from that state, on any machine of the host's interface. -/
theorem core_run_succ {M : Host.Core} {n : Nat} {s t : M.State} (h : M.step s = .next t) :
    M.run (n + 1) s = M.run n t := by
  simp [Host.Core.run, h]

/-- Everything a step can do: stay idle, let a wait pass, take a reset, or perform one command. -/
theorem step_cases (s : State) :
    (s.port = [] ∧ step s = .next s) ∨
      (∃ rest, s.port = .wait :: rest ∧ step s = .next (s.setPort rest)) ∨
      (∃ out rest, s.port = .reset out :: rest ∧ step s = .next (s.applyReset.setPort rest)) ∨
      (∃ c rest i, s.port = .command c :: rest ∧ decode c = .ok i ∧ step s = exec i (s.setPort rest)) ∨
      (∃ c rest why, s.port = .command c :: rest ∧ decode c = .error why ∧
        step s = .next ((s.setPort rest).rejected 3#4)) := by
  unfold step
  split
  · next h => exact .inl ⟨h, rfl⟩
  · next rest h => exact .inr (.inl ⟨rest, h, rfl⟩)
  · next out rest h => exact .inr (.inr (.inl ⟨out, rest, h, rfl⟩))
  · next c rest h =>
    split
    · next i hi => exact .inr (.inr (.inr (.inl ⟨c, rest, i, h, hi, rfl⟩)))
    · next why hw => exact .inr (.inr (.inr (.inr ⟨c, rest, why, h, hw, rfl⟩)))

end Sys2Proof.Machine
end

