-- ==== Sys2Proof/Laws/PerInstr.lean ====
section
/-! SUPPORT. Families of statements about every instruction as syntax, one lemma for each constructor. -/

namespace Sys2Proof.Laws.EncodedOpcode

/-- The low four bits of a well-formed instruction's word are its opcode (R61, R70). -/
def Statement (i : Instr) : Prop := i.wellFormed = true → (opField i.word).toNat = i.opcode

theorem of_fields {op s t w o : Nat} (hop : op < 16) (hs : s < 2) (ht : t < 2) (hw : w < 256) (ho : o < 65536) :
    (opField (commandWord op s t w o)).toNat = op := by
  rw [opField, bits_toNat, commandWord_toNat hop hs ht hw ho]
  omega

theorem nop : Statement .nop := fun _ => by decide

theorem encInt (S : Signedness) (T : Policy) (W : Nat) (data : Data) : Statement (.encInt S T W data) := fun h =>
  of_fields (by decide) (signBit_lt S) (policyBit_lt T) ((widthFits_iff W).mp h) (by decide)

theorem encFloat (W : Nat) (data : Data) : Statement (.encFloat W data) := fun h =>
  of_fields (by decide) (by decide) (by decide) ((widthFits_iff W).mp h) (by decide)

theorem encText (W : Nat) (text : List Byte) : Statement (.encText W text) := fun h =>
  of_fields (by decide) (by decide) (by decide) ((widthFits_iff W).mp h) (by decide)

theorem bufClear : Statement .bufClear := fun _ => by decide

theorem crcInit : Statement .crcInit := fun _ => by decide

theorem crcByte (data : Data) : Statement (.crcByte data) := fun _ =>
  of_fields (by decide) (by decide) (by decide) (by decide) (by decide)

theorem crcBuf (O : Nat) : Statement (.crcBuf O) := fun h =>
  of_fields (by decide) (by decide) (by decide) (by decide) ((offsetFits_iff O).mp h)

theorem crcEmit : Statement .crcEmit := fun _ => by decide

theorem crcRead : Statement .crcRead := fun _ => by decide

theorem statRead : Statement .statRead := fun _ => by decide

theorem statClear : Statement .statClear := fun _ => by decide

theorem bufRead (O : Nat) : Statement (.bufRead O) := fun h =>
  of_fields (by decide) (by decide) (by decide) (by decide) ((offsetFits_iff O).mp h)

end Sys2Proof.Laws.EncodedOpcode
end

