-- ==== Sys2Proof/Machine/Assembly.lean ====
section
/-! DEFINITION. The assembly syntax of R74: one command per line, read as a list of characters, to the instruction the
line stands for. The command word of a line is `encode` of that instruction (R75). Log entry 7. -/

namespace Sys2Proof.Machine

/-- The characters without the blanks they begin with. -/
def dropBlanks (l : List Char) : List Char := l.dropWhile fun c => c = ' ' || c = '\t'

/-- The characters without the blanks around them. -/
def trimBlanks (l : List Char) : List Char := (dropBlanks (dropBlanks l).reverse).reverse

/-- The characters up to the first `sep`, and those after it if there is one. -/
def cutAt (sep : Char) : List Char → List Char × Option (List Char)
  | [] => ([], none)
  | c :: l => if c = sep then ([], some l) else ((c :: (cutAt sep l).1), (cutAt sep l).2)

/-- The parts between commas, the blanks around each removed. -/
def splitCommas : List Char → List (List Char)
  | [] => [[]]
  | c :: l =>
    match splitCommas l with
    | part :: parts => if c = ',' then [] :: part :: parts else (c :: part) :: parts
    | [] => [[c]]

/-- The value of a hexadecimal digit. -/
def digitValue (c : Char) : Option Nat :=
  if 48 ≤ c.toNat && c.toNat ≤ 57 then some (c.toNat - 48)
  else if 65 ≤ c.toNat && c.toNat ≤ 70 then some (c.toNat - 55)
  else if 97 ≤ c.toNat && c.toNat ≤ 102 then some (c.toNat - 87)
  else none

/-- The digits of a number in base `base`, after `acc`. -/
def readDigits (base : Nat) : Nat → List Char → Option Nat
  | acc, [] => some acc
  | acc, c :: l =>
    match digitValue c with
    | some d => if d < base then readDigits base (acc * base + d) l else none
    | none => none

/-- A number: decimal, or hexadecimal with `0x` (R74). -/
def readNumber : List Char → Option Nat
  | [] => none
  | '0' :: 'x' :: c :: l => readDigits 16 0 (c :: l)
  | c :: l => readDigits 10 0 (c :: l)

/-- A data operand: a number below 2^64, or `-` and a number, read as two's complement. DEDUCED from the line
`ENC_INT 4,s,strict,-1` of 95_test_vectors.md P3 (log entry 7). -/
def readData : List Char → Option Data
  | '-' :: l =>
    match readNumber l with
    | some n => if n ≤ 2 ^ 63 then some (BitVec.ofInt 64 (-(n : Int))) else none
    | none => none
  | l =>
    match readNumber l with
    | some n => if n < 2 ^ 64 then some (BitVec.ofNat 64 n) else none
    | none => none

/-- One byte of a byte list. -/
def readByte (l : List Char) : Option Byte :=
  match readNumber l with
  | some n => if n < 256 then some (BitVec.ofNat 8 n) else none
  | none => none

/-- Every part of a list read, or none. -/
def readAll : List (List Char) → Option (List Byte)
  | [] => some []
  | part :: parts =>
    match readByte (trimBlanks part), readAll parts with
    | some b, some bytes => some (b :: bytes)
    | _, _ => none

/-- The characters of a text literal up to its closing quote, which ends the line: their ASCII codes (R74). -/
def readLiteral : List Char → Option (List Byte)
  | ['"'] => some []
  | '"' :: _ => none
  | c :: l =>
    match readLiteral l with
    | some bytes => if c.toNat < 128 then some (BitVec.ofNat 8 c.toNat :: bytes) else none
    | none => none
  | [] => none

/-- A text operand: a literal in double quotes, or a byte list in brackets (R74). -/
def readText : List Char → Option (List Byte)
  | '"' :: l => readLiteral l
  | '[' :: l =>
    match cutAt ']' l with
    | (inside, some []) => if trimBlanks inside = [] then some [] else readAll (splitCommas inside)
    | _ => none
  | _ => none

/-- `S` in s, u (R74). -/
def readSign (l : List Char) : Option Signedness :=
  if l = ['s'] then some .signed else if l = ['u'] then some .unsigned else none

/-- `T` in strict, trunc (R74). -/
def readPolicy (l : List Char) : Option Policy :=
  if l = ['s', 't', 'r', 'i', 'c', 't'] then some .strict
  else if l = ['t', 'r', 'u', 'n', 'c'] then some .truncating else none

/-- How R74 writes each mnemonic. -/
def Mnemonic.chars : Mnemonic → List Char
  | .nop => ['N', 'O', 'P']
  | .encInt => ['E', 'N', 'C', '_', 'I', 'N', 'T']
  | .encFloat => ['E', 'N', 'C', '_', 'F', 'L', 'O', 'A', 'T']
  | .encText => ['E', 'N', 'C', '_', 'T', 'E', 'X', 'T']
  | .bufClear => ['B', 'U', 'F', '_', 'C', 'L', 'E', 'A', 'R']
  | .crcInit => ['C', 'R', 'C', '_', 'I', 'N', 'I', 'T']
  | .crcByte => ['C', 'R', 'C', '_', 'B', 'Y', 'T', 'E']
  | .crcBuf => ['C', 'R', 'C', '_', 'B', 'U', 'F']
  | .crcEmit => ['C', 'R', 'C', '_', 'E', 'M', 'I', 'T']
  | .crcRead => ['C', 'R', 'C', '_', 'R', 'E', 'A', 'D']
  | .statRead => ['S', 'T', 'A', 'T', '_', 'R', 'E', 'A', 'D']
  | .statClear => ['S', 'T', 'A', 'T', '_', 'C', 'L', 'E', 'A', 'R']
  | .bufRead => ['B', 'U', 'F', '_', 'R', 'E', 'A', 'D']

/-- The mnemonic a word names. -/
def readMnemonic (l : List Char) : Option Mnemonic :=
  [Mnemonic.nop, .encInt, .encFloat, .encText, .bufClear, .crcInit, .crcByte, .crcBuf, .crcEmit, .crcRead, .statRead,
    .statClear, .bufRead].find? fun m => Mnemonic.chars m = l

/-- The instruction of a mnemonic that takes no operand. -/
def readPlain (i : Instr) (operands : List Char) : Option Instr := if operands = [] then some i else none

/-- The operands of a mnemonic, in the order R74 lists them. -/
def readOperands (m : Mnemonic) (l : List Char) : Option Instr :=
  match m with
  | .nop => readPlain .nop l
  | .encInt =>
    match (splitCommas l).map trimBlanks with
    | [w, sg, po, d] =>
      match readNumber w, readSign sg, readPolicy po, readData d with
      | some W, some S, some T, some data => some (.encInt S T W data)
      | _, _, _, _ => none
    | _ => none
  | .encFloat =>
    match (splitCommas l).map trimBlanks with
    | [w, d] =>
      match readNumber w, readData d with
      | some W, some data => some (.encFloat W data)
      | _, _ => none
    | _ => none
  | .encText =>
    match cutAt ',' l with
    | (w, some t) =>
      match readNumber (trimBlanks w), readText (trimBlanks t) with
      | some W, some text => some (.encText W text)
      | _, _ => none
    | _ => none
  | .bufClear => readPlain .bufClear l
  | .crcInit => readPlain .crcInit l
  | .crcByte => (readData l).map .crcByte
  | .crcBuf => (readNumber l).map .crcBuf
  | .crcEmit => readPlain .crcEmit l
  | .crcRead => readPlain .crcRead l
  | .statRead => readPlain .statRead l
  | .statClear => readPlain .statClear l
  | .bufRead => (readNumber l).map .bufRead

/-- The instruction of one assembly line (R74); `none` where the line is not of the syntax, or where a width or an
offset has no place in the command word (R75). -/
def assemble (line : List Char) : Option Instr :=
  let cut := cutAt ' ' (trimBlanks line)
  match readMnemonic cut.1 with
  | some m => (readOperands m (trimBlanks (cut.2.getD []))).filter Instr.wellFormed
  | none => none

end Sys2Proof.Machine
end

