-- ==== Sys2Proof/Tests/Slice0.lean ====
section
/-! SUPPORT. Tests whose expected values are the spec's own (95_test_vectors.md and the examples of the rules), and, for
every statement that has hypotheses, a witness that meets them. -/

namespace Sys2Proof.Tests

open Sys2Proof.Machine

/-- A block with these parameters whose buffer holds these bytes. -/
def holding (cap : Fin 65536) (high : TextHigh) (bytes : List Byte) : State :=
  { State.resetWith ⟨cap, high⟩ with buf := Memory.writeList [] 0 bytes, len := BitVec.ofNat 16 bytes.length }

/-- The state an outcome leads to. -/
def after : Result → Option State
  | .next t => some t
  | _ => none

/-- What an outcome appended: the bytes at and after index `k`. -/
def bytesFrom (k : Nat) (o : Result) : Option (List Byte) := (after o).map fun t => (t.buf.map Prod.snd).drop k

/-- The last response. -/
def answer (o : Result) : Option Response := (after o).bind fun t => t.responses.getLast?

/-- The reset block with this word at its command port. -/
def presenting (word : Word) (data : Data) (text : List Byte) : State :=
  { State.reset with port := [.command ⟨word, data, text⟩] }

/-! ## Decoding: one word of each command, written out from R60, and the refusals of 95_test_vectors.md 2.7 -/

theorem test_decode_nop : decode ⟨0b00000000000000000000000000000000#32, 7, [1]⟩ = .ok .nop := by rfl
theorem test_decode_enc_int : decode ⟨0b00000000000000000000000100110001#32, 128, []⟩ =
    .ok (.encInt .signed .truncating 1 128) := by rfl
theorem test_decode_enc_int_unsigned : decode ⟨0b00000000000000000000001000000001#32, 0x200, []⟩ =
    .ok (.encInt .unsigned .strict 2 0x200) := by rfl
theorem test_decode_enc_float : decode ⟨0b00000000000000000000010000000010#32, 0x3F800000, []⟩ =
    .ok (.encFloat 4 0x3F800000) := by rfl
theorem test_decode_enc_text : decode ⟨0b00000000000000000000100000000011#32, 0, [0x41, 0x42]⟩ =
    .ok (.encText 8 [0x41, 0x42]) := by rfl
theorem test_decode_buf_clear : decode ⟨0b00000000000000000000000000000100#32, 0, []⟩ = .ok .bufClear := by rfl
theorem test_decode_crc_init : decode ⟨0b00000000000000000000000000000101#32, 0, []⟩ = .ok .crcInit := by rfl
theorem test_decode_crc_byte : decode ⟨0b00000000000000000000000000000110#32, 0x102, []⟩ = .ok (.crcByte 0x102) := by rfl
theorem test_decode_crc_buf : decode ⟨0b11111111111111110000000000000111#32, 0, []⟩ = .ok (.crcBuf 65535) := by rfl
theorem test_decode_crc_emit : decode ⟨0b00000000000000000000000000001000#32, 0, []⟩ = .ok .crcEmit := by rfl
theorem test_decode_crc_read : decode ⟨0b00000000000000000000000000001001#32, 0, []⟩ = .ok .crcRead := by rfl
theorem test_decode_stat_read : decode ⟨0b00000000000000000000000000001010#32, 0, []⟩ = .ok .statRead := by rfl
theorem test_decode_stat_clear : decode ⟨0b00000000000000000000000000001011#32, 0, []⟩ = .ok .statClear := by rfl
theorem test_decode_buf_read : decode ⟨0b00000000000001010000000000001100#32, 0, []⟩ = .ok (.bufRead 5) := by rfl

theorem test_decode_refuses_reserved_bits :
    ([0x00000040, 0x00000081, 0x00000012, 0x00010004, 0x0000FFF7, 0x0000001C, 0x00000106, 0x0000001B].all fun w =>
      decodeTableWord 32 w = none) = true := by decide

theorem test_decode_refuses_reserved_opcodes :
    ([0x0000000D, 0x0000000E, 0x0000000F, 0xFFFF000F, 0xFFFF00FF].all fun w => decodeTableWord 32 w = none) = true := by
  decide

/-- The table's own match of each row, read by the decoder, gives the row's mnemonic. -/
theorem test_table_matches_decode :
    (opcodeTable.all fun r => (decodeTableWord 32 r.pattern.toNat).map Instr.mnemonic = some r.mnemonic) = true := by
  decide

/-- R75's examples. -/
theorem test_encode_examples :
    (encode (.encInt .unsigned .strict 2 0x200)).word = 0x00000201#32 ∧
    (encode (.encInt .signed .truncating 1 128)).word = 0x00000131#32 ∧
    (encode (.encFloat 4 0x3F800000)).word = 0x00000402#32 ∧ (encode (.encText 8 [])).word = 0x00000803#32 ∧
    (encode (.crcBuf 0)).word = 0x00000007#32 ∧ (encode (.bufRead 5)).word = 0x0005000C#32 := by decide

/-! ## Well-formedness: each check refuses an ill-formed term -/

theorem test_width_check_refuses : (Instr.encInt .signed .strict 256 0).wellFormed = false ∧
    (Instr.encFloat 256 0).wellFormed = false ∧ (Instr.encText 256 []).wellFormed = false := by decide

theorem test_offset_check_refuses : (Instr.crcBuf 65536).wellFormed = false ∧
    (Instr.bufRead 65536).wellFormed = false := by decide

theorem test_config_check_refuses : (Config.mk 0 .pass).wf = false := by decide

/-! ## The CRC algorithm (95_test_vectors.md 2.1) -/

theorem test_crc_values : absorbList 0xFFFF [0x80] = 0xE0BE ∧ absorbList 0xFFFF [0xFF] = 0x00FF ∧
    absorbList 0xFFFF [127, 3, 4, 140, 161, 0, 0] = 0x461F ∧
    absorbList 0xFFFF [0x31, 0x32, 0x33, 0x34, 0x35, 0x36, 0x37, 0x38, 0x39] = 0x4B37 := by decide +kernel

/-! ## One step of each command (95_test_vectors.md 2.2 to 2.8) -/

theorem test_nop : after (exec .nop State.reset) = some { State.reset with responses := [⟨0, 0⟩] } := by decide

theorem test_enc_int_sign_extends : bytesFrom 0 (exec (.encInt .signed .strict 10 0xFFFFFFFFFFFFFFFE) State.reset) =
    some [0xFF, 0xFF, 0xFF, 0xFF, 0xFF, 0xFF, 0xFF, 0xFF, 0xFF, 0xFE] := by decide

theorem test_enc_int_truncates : bytesFrom 1 (exec (.encInt .unsigned .truncating 4 0x123456789ABCDEF0)
    (holding 256 .pass [0x11])) = some [0x9A, 0xBC, 0xDE, 0xF0] := by decide

theorem test_enc_float : bytesFrom 0 (exec (.encFloat 4 0xDEADBEEF3F800000) State.reset) =
    some [0x3F, 0x80, 0x00, 0x00] := by decide

theorem test_enc_float_overflow : answer (exec (.encFloat 4 0) (holding 4 .pass [9])) = some ⟨4, 0⟩ := by decide

theorem test_enc_text_pads : bytesFrom 0 (exec (.encText 8 [0x41, 0x42]) State.reset) =
    some [0x41, 0x42, 0, 0, 0, 0, 0, 0] := by decide

theorem test_enc_text_non_ascii_wins : answer (exec (.encText 2 [0x80]) (holding 4 .reject [1, 2, 3])) = some ⟨6, 0⟩ := by
  decide

theorem test_buf_clear : (after (exec .bufClear (holding 16 .pass [8, 1, 18]))).map (fun t => (t.len, t.buf, t.crc)) =
    some (0, [], 0xFFFF) := by decide

theorem test_buf_read : answer (exec (.bufRead 5) (holding 16 .pass [8, 1, 18, 5, 2, 2, 0, 1, 0])) = some ⟨0, 2⟩ := by
  decide

theorem test_buf_read_past_end : answer (exec (.bufRead 9) (holding 16 .pass [8, 1, 18, 5, 2, 2, 0, 1, 0])) =
    some ⟨5, 0⟩ := by decide

theorem test_crc_init : (after (exec .crcInit { State.reset with crc := 0x1234 })).map (·.crc) = some 0xFFFF := by decide

theorem test_crc_byte : (after (exec (.crcByte 0x101) { State.reset with crc := 0x40BF })).map (·.crc) =
    some 0x70C0 := by decide

theorem test_crc_buf : (after (exec (.crcBuf 1) (holding 16 .pass [9, 0, 1, 2]))).map (·.crc) = some 0x91F1 := by
  decide +kernel

theorem test_crc_buf_past_end : answer (exec (.crcBuf 4) (holding 16 .pass [0, 1, 2])) = some ⟨5, 0⟩ := by decide

theorem test_crc_emit : bytesFrom 7 (exec .crcEmit { holding 16 .pass [127, 3, 4, 140, 161, 0, 0] with crc := 0x461F }) =
    some [0x1F, 0x46] := by decide

theorem test_crc_emit_overflow : (after (exec .crcEmit (holding 3 .pass [1, 2]))).map (fun t => (t.len, t.first)) =
    some (2, 4) := by decide

theorem test_crc_read : answer (exec .crcRead { State.reset with crc := 0x91F1 }) = some ⟨0, 0x000091F1⟩ := by decide

theorem test_stat_read : answer (exec .statRead { holding 16 .pass [1, 2, 3, 4, 5, 6, 7] with err := true, first := 1 }) =
    some ⟨0, 0x00070011⟩ := by decide

theorem test_stat_clear : (after (exec .statClear { State.reset with err := true, first := 1 })).map
    (fun t => (t.err, t.first)) = some (false, 0) := by decide

theorem test_step_illegal_keeps_first : (after (step { presenting 0x0000000D 0 [] with err := true, first := 1 })).map
    (fun t => (t.err, t.first, t.responses)) = some (true, 1, [⟨3, 0⟩]) := by decide

theorem test_step_fetches_the_table_word : answer (step (State.reset.withFetchWord 32 0x0000000C)) = some ⟨5, 0⟩ := by
  decide

/-! ## Assembly lines (R74) -/

theorem test_assemble_int : assemble "ENC_INT 2, u, strict, 0x0200".toList = some (.encInt .unsigned .strict 2 0x200) := by
  decide

theorem test_assemble_negative : assemble "ENC_INT 4,s,strict,-1".toList =
    some (.encInt .signed .strict 4 0xFFFFFFFFFFFFFFFF) := by decide

theorem test_assemble_text : assemble "ENC_TEXT 8, \"AB\"".toList = some (.encText 8 [0x41, 0x42]) ∧
    assemble "ENC_TEXT 8, [0x41,0x42]".toList = some (.encText 8 [0x41, 0x42]) := by decide

theorem test_assemble_others : assemble "ENC_FLOAT 4, 0x3F800000".toList = some (.encFloat 4 0x3F800000) ∧
    assemble "CRC_BYTE 0x02".toList = some (.crcByte 2) ∧ assemble "CRC_BUF 0".toList = some (.crcBuf 0) ∧
    assemble "BUF_READ 5".toList = some (.bufRead 5) ∧ assemble "STAT_CLEAR".toList = some .statClear := by decide

theorem test_assemble_refuses : assemble "ENC_TEXT 256, \"A\"".toList = none ∧ assemble "NOP 1".toList = none ∧
    assemble "ENC_INT 2, x, strict, 1".toList = none := by decide

/-! ## Witnesses: a state and operands that meet the hypotheses of each statement, clause by clause -/

theorem witness_DecodeOfEncodeIsTheInstruction : (Instr.encInt .signed .truncating 255 1).wellFormed = true ∧
    (Instr.encText 0 []).wellFormed = true ∧ (Instr.crcBuf 65535).wellFormed = true ∧
    (Instr.bufRead 0).wellFormed = true := by decide

theorem witness_DecodedInstructionEncodesToItsWord :
    decode ⟨0x0000FF31#32, 5, []⟩ = .ok (.encInt .signed .truncating 255 5) := by rfl

theorem witness_DecodeFollowsTheOpcodeTable_row : ∃ r ∈ opcodeTable, 0x0000FF31#32 &&& r.mask = r.pattern := by decide

theorem witness_DecodeFollowsTheOpcodeTable_none : ∀ r ∈ opcodeTable, 0x0000000D#32 &&& r.mask ≠ r.pattern := by decide

theorem witness_ReservedEncodingsRaiseIllegalCommand_opcode : 0xD ≤ (opField 0x0000000D#32).toNat := by decide

theorem witness_ReservedEncodingsRaiseIllegalCommand_bits :
    ∃ r ∈ opcodeTable, opField 0x00000081#32 = opField r.pattern ∧ 0x00000081#32 &&& r.mask ≠ r.pattern := by decide

theorem witness_StepRunsTheDecodedCommand : ∃ c rest,
    (presenting 0x00000101 7 []).port = .command c :: rest ∧ decode c = .ok (.encInt .unsigned .strict 1 7) :=
  ⟨_, _, rfl, rfl⟩

theorem witness_NopOnlyResponds : opField 0x00000000#32 = 0x0#4 ∧ opField 0x00000040#32 = 0x0#4 := by decide

theorem witness_StatReadReturnsStatus : State.reset.StickyInv ∧ State.reset.err = false ∧
    opField 0x0000000A#32 = 0xA#4 ∧ opField 0x0000001A#32 = 0xA#4 := by decide

theorem witness_StatClearClearsTheStickyState_words : opField 0x0000000B#32 = 0xB#4 ∧ opField 0x0000001B#32 = 0xB#4 := by
  decide

theorem witness_StatClearClearsTheStickyState_step : ∃ t c rest,
    (presenting 0x0000001B 0 []).port = .command c :: rest ∧ opField c.word = 0xB#4 ∧ c.word ≠ 0x0000000B#32 ∧
      step (presenting 0x0000001B 0 []) = .next t := ⟨_, _, _, rfl, by decide, by decide, rfl⟩

theorem witness_CrcInitLoadsTheSeed : opField 0x00000005#32 = 0x5#4 ∧ opField 0x80000005#32 = 0x5#4 := by decide

theorem witness_CrcByteAbsorbsTheLowByte : opField 0x00000006#32 = 0x6#4 ∧ opField 0x00000106#32 = 0x6#4 ∧
    State.reset.crc = 0xFFFF#16 := by decide

theorem witness_CrcBufAbsorbsFromTheOffset_range : (holding 16 .pass [0, 1, 2]).len.toNat < 4 := by decide

theorem witness_CrcBufAbsorbsFromTheOffset : (holding 16 .pass [0, 1, 2]).BufferInv ∧
    0 ≤ (holding 16 .pass [0, 1, 2]).len.toNat ∧ 3 ≤ (holding 16 .pass [0, 1, 2]).len.toNat := by decide

theorem witness_CrcBufAbsorbsFromTheOffset_words : opField 0xFFFF0007#32 = 0x7#4 ∧ bits 0xFFFF0007#32 4 12 = 0#12 ∧
    opField 0x0000FFF7#32 = 0x7#4 ∧ bits 0x0000FFF7#32 4 12 ≠ 0#12 := by decide

theorem witness_CrcEmitAppendsTheTrailer :
    (holding 3 .pass [1, 2]).cfg.bufCap.val < (holding 3 .pass [1, 2]).len.toNat + 2 ∧
    (holding 4 .pass [1, 2]).len.toNat + 2 ≤ (holding 4 .pass [1, 2]).cfg.bufCap.val ∧
    opField 0x00000008#32 = 0x8#4 ∧ opField 0x00000018#32 = 0x8#4 := by decide

theorem witness_CrcReadReturnsTheCrc : opField 0x00000009#32 = 0x9#4 ∧ opField 0x00010009#32 = 0x9#4 := by decide

theorem witness_CrcTellsOneChangedByte : (0x00 : Byte) ≠ 0xFF := by decide

theorem witness_CrcBufAgreesWithCrcBytes : (holding 3 .pass [0, 1, 2]).BufferInv ∧
    0 ≤ (holding 3 .pass [0, 1, 2]).len.toNat := by decide

theorem witness_ByteOrdersOfIntegers : 1 ≤ 255 ∧ 254 < 255 ∧ 0 < 1 := by decide

theorem witness_EncIntOutcomes_range : ¬InRange .signed 1 128 ∧ ¬InRange .signed 1 (-129) ∧ ¬InRange .unsigned 1 256 ∧
    InRange .signed 1 127 ∧ InRange .signed 1 (-128) ∧ InRange .unsigned 1 255 ∧ InRange .unsigned 1 0 := by
  unfold InRange; decide

theorem witness_EncIntOutcomes_full :
    (holding 4 .pass [1, 2, 3]).cfg.bufCap.val < (holding 4 .pass [1, 2, 3]).len.toNat + 2 ∧ InRange .unsigned 2 1 := by
  unfold InRange; decide

theorem witness_EncIntOutcomes_room :
    (holding 4 .pass [1, 2, 3]).len.toNat + 1 ≤ (holding 4 .pass [1, 2, 3]).cfg.bufCap.val ∧ InRange .unsigned 1 1 ∧
    (Policy.truncating = .strict → InRange .unsigned 1 256) := by
  unfold InRange; decide

theorem witness_EncIntOutcomes_words : opField 0x0000FF31#32 = 0x1#4 ∧ bits 0x0000FF31#32 6 2 = 0#2 ∧
    bits 0x0000FF31#32 16 16 = 0#16 ∧ bits 0x00000081#32 6 2 ≠ 0#2 ∧ bits 0x80000001#32 16 16 ≠ 0#16 := by decide

theorem witness_EightBytesHoldEveryOperand : 8 ≤ 8 ∧ 8 ≤ 255 := by decide

theorem witness_PoliciesAgreeOnRepresentableValues : 1 ≤ 1 ∧ InRange .signed 1 (intOperand .signed 0xFFFFFFFFFFFFFF80) := by
  unfold InRange; decide

theorem witness_EncodedIntegerDecodesToItsValue : 1 ≤ 6 ∧ InRange .signed 6 (intOperand .signed 0xFFFF800000000000) ∧
    (holding 7 .pass [1]).len.toNat + 6 ≤ (holding 7 .pass [1]).cfg.bufCap.val := by
  unfold InRange; decide

theorem witness_TruncationKeepsTheLowBytes : 0 ≤ 8 ∧ 8 ≤ 8 := by decide

theorem witness_WideIntegersAreExtendedAtTheFront : 8 ≤ 9 ∧ intOperand .signed 0x8000000000000000 < 0 ∧
    ¬intOperand .unsigned 0x8000000000000000 < 0 := by decide

theorem witness_EncFloatOutcomes : (3 : Nat) ≠ 4 ∧ (5 : Nat) ≠ 4 ∧
    (holding 4 .pass [1]).cfg.bufCap.val < (holding 4 .pass [1]).len.toNat + 4 ∧
    (holding 5 .pass [1]).len.toNat + 4 ≤ (holding 5 .pass [1]).cfg.bufCap.val := by decide

theorem witness_EncFloatOutcomes_words : opField 0x00000402#32 = 0x2#4 ∧ bits 0x00000402#32 4 4 = 0#4 ∧
    bits 0x00000402#32 16 16 = 0#16 ∧ bits 0x00000012#32 4 4 ≠ 0#4 ∧ bits 0x00010002#32 16 16 ≠ 0#16 := by decide

theorem witness_EncTextOutcomes_tooLong : 0 < ([0x41] : List Byte).length ∧ 2 < ([1, 2, 3] : List Byte).length := by
  decide

theorem witness_EncTextOutcomes_nonAscii : ([0x41, 0x80] : List Byte).length ≤ 2 ∧
    (holding 4 .reject [1, 2, 3]).cfg.textHigh = .reject ∧ ∃ b ∈ ([0x41, 0x80] : List Byte), 0x80 ≤ b.toNat := by decide

theorem witness_EncTextOutcomes_full : ([0x7A] : List Byte).length ≤ 1 ∧
    ((holding 4 .reject [1, 2, 3, 4]).cfg.textHigh = .reject → ∀ b ∈ ([0x7A] : List Byte), b.toNat < 0x80) ∧
    (holding 4 .reject [1, 2, 3, 4]).cfg.bufCap.val < (holding 4 .reject [1, 2, 3, 4]).len.toNat + 1 := by decide

theorem witness_EncTextOutcomes_room : ([0x80] : List Byte).length ≤ 1 ∧
    ((holding 2 .pass [1]).cfg.textHigh = .reject → ∀ b ∈ ([0x80] : List Byte), b.toNat < 0x80) ∧
    (holding 2 .pass [1]).len.toNat + 1 ≤ (holding 2 .pass [1]).cfg.bufCap.val ∧
    (holding 2 .pass [1, 2]).len.toNat + 0 ≤ (holding 2 .pass [1, 2]).cfg.bufCap.val := by decide

theorem witness_EncTextOutcomes_words : opField 0x0000FF03#32 = 0x3#4 ∧ bits 0x0000FF03#32 4 4 = 0#4 ∧
    bits 0x0000FF03#32 16 16 = 0#16 ∧ bits 0x00000013#32 4 4 ≠ 0#4 ∧ bits 0x00010003#32 16 16 ≠ 0#16 := by decide

theorem witness_BufClearEmptiesTheBuffer : opField 0x00000004#32 = 0x4#4 ∧ opField 0x00010004#32 = 0x4#4 := by decide

theorem witness_BufReadReturnsTheByte : (holding 3 .pass [7, 8]).BufferInv ∧ 1 < (holding 3 .pass [7, 8]).len.toNat ∧
    (holding 3 .pass [7, 8]).len.toNat ≤ 2 ∧ State.reset.len.toNat ≤ 0 := by decide

theorem witness_BufReadReturnsTheByte_words : opField 0x0005000C#32 = 0xC#4 ∧ bits 0x0005000C#32 4 12 = 0#12 ∧
    opField 0x0000001C#32 = 0xC#4 ∧ bits 0x0000001C#32 4 12 ≠ 0#12 := by decide

theorem witness_CrcTrailerReadsBack : (holding 4 .pass [1, 2]).len.toNat + 2 ≤ (holding 4 .pass [1, 2]).cfg.bufCap.val := by
  decide

theorem witness_BytesBelowLenAreKept : Instr.crcEmit ≠ .bufClear ∧ ∃ t, exec .crcEmit (holding 4 .pass [1, 2]) = .next t :=
  ⟨by decide, _, rfl⟩

theorem witness_OnlyCrcCommandsWriteCrc : ∃ t, exec .crcInit { State.reset with crc := 0x1234 } = .next t ∧
    t.crc ≠ ({ State.reset with crc := 0x1234 } : State).crc := ⟨_, rfl, by decide⟩

theorem witness_FailingCommandChangesOnlyTheStickyState : ∃ t c rest,
    (presenting 0x00000101 0x100 []).port = .command c :: rest ∧ step (presenting 0x00000101 0x100 []) = .next t ∧
      t.responses = [⟨1#4, 0#32⟩] := ⟨_, _, _, rfl, rfl, by decide⟩

theorem witness_FailingCommandChangesOnlyTheStickyState_ok : ∃ t c rest,
    (presenting 0x00000101 0xFF []).port = .command c :: rest ∧ step (presenting 0x00000101 0xFF []) = .next t ∧
      t.responses = [⟨0#4, 0#32⟩] := ⟨_, _, _, rfl, rfl, by decide⟩

theorem witness_ErrStaysSetUntilCleared_sets : ∃ t c rest, (presenting 0x0000000C 0 []).port = .command c :: rest ∧
    step (presenting 0x0000000C 0 []) = .next t ∧ AnsweredWith (presenting 0x0000000C 0 []) t 5#4 0#32 ∧ (5#4 : Code) ≠ 0#4 :=
  ⟨_, _, _, rfl, rfl, rfl, by decide⟩

theorem witness_ErrStaysSetUntilCleared_clears :
    ∃ t, step { presenting 0x0000000B 0 [] with err := true, first := 2 } = .next t ∧ t.err = false := ⟨_, rfl, rfl⟩

theorem witness_ErrStaysSetUntilCleared_reset :
    ∃ t, step { State.reset with err := true, first := 2, port := [.reset none] } = .next t ∧ t.err = false :=
  ⟨_, rfl, rfl⟩

/-- Two CRC_EMITs on a full one-byte block. -/
def failingTwice : State :=
  { holding 1 .pass [7] with port := [.command ⟨0x00000008#32, 0, []⟩, .command ⟨0x00000008#32, 0, []⟩] }

theorem witness_FailureRepeats : ∃ t u c rest, failingTwice.port = .command c :: .command c :: rest ∧
    step failingTwice = .next t ∧ AnsweredWith failingTwice t 4#4 0#32 ∧ (4#4 : Code) ≠ 0#4 ∧ step t = .next u :=
  ⟨_, _, _, _, rfl, rfl, rfl, by decide, rfl⟩

theorem witness_UnreadOperandsHaveNoEffect_float : (0xDEADBEEF3F800000 : Data).extractLsb' 0 32 =
    (0x3F800000 : Data).extractLsb' 0 32 ∧ opField 0x00000402#32 = 0x2#4 := by decide

theorem witness_UnreadOperandsHaveNoEffect_byte : (0x102 : Data).extractLsb' 0 8 = (0x02 : Data).extractLsb' 0 8 ∧
    opField 0x00000006#32 = 0x6#4 ∧ opField 0x00000000#32 ≠ 0x1#4 ∧ opField 0x00000000#32 ≠ 0x3#4 := by decide

theorem witness_ParametersNeverChange : ∃ t, step (presenting 0x00000008 0 []) = .next t := ⟨_, rfl⟩

/-- A block with a reset pending that loses a CRC_EMIT. -/
def resetPending : State :=
  { holding 4 .reject [1, 2] with port := [.reset (some ⟨0x00000008#32, 0, []⟩)], err := true, first := 2 }

theorem witness_ResetState : ∃ out rest, resetPending.port = .reset out :: rest := ⟨_, _, rfl⟩

theorem witness_ResetLosesTheOutstandingCommand : ∃ t u v c,
    step { resetPending with port := .command c :: .reset none :: [] } = .next t ∧ step t = .next u ∧
      step { resetPending with port := .reset (some c) :: [] } = .next v :=
  ⟨_, _, _, ⟨0x00000008#32, 0, []⟩, rfl, rfl, rfl⟩

theorem witness_WaitingKeepsAllState : State.reset.port = [] ∧
    ({ State.reset with port := [.wait] } : State).port = .wait :: [] := by decide

theorem witness_ResetMeetsTheInvariant : (Config.mk 1 .pass).wf = true ∧ (Config.mk 65535 .reject).wf = true := by decide

theorem witness_InvariantKeptByEveryStep : (presenting 0x00000101 0x100 []).Inv ∧
    ∃ t, step (presenting 0x00000101 0x100 []) = .next t := ⟨by decide, _, rfl⟩

theorem witness_BufferStaysCanonical : resetPending.buf.wf = true ∧ ∃ t, step resetPending = .next t := ⟨by decide, _, rfl⟩

theorem witness_NoRunStops : failingTwice.Inv := by decide

/-- The fault needs a state that breaks the buffer invariant. -/
theorem witness_FaultOnlyOnAnAbsentByte : exec (.bufRead 0) { State.reset with len := 1 } = .fault .absentByte := by rfl

theorem witness_PseudoCrc16ReadsTheCrcOfTheBuffer : (holding 3 .pass [0, 1, 2]).BufferInv ∧
    1 ≤ (holding 3 .pass [0, 1, 2]).len.toNat := by decide

theorem witness_ReceiverFindsZeroResidue : (holding 5 .pass [0, 1, 2]).BufferInv ∧
    3 ≤ (holding 5 .pass [0, 1, 2]).len.toNat ∧
    (holding 5 .pass [0, 1, 2]).len.toNat + 2 ≤ (holding 5 .pass [0, 1, 2]).cfg.bufCap.val := by decide

end Sys2Proof.Tests
end

/-! PROOFS. The family 00_scope.md: what one step can do (R12, R31), the frame of every success on the buffer and on the
sticky state, the invariant every step keeps, and the byte orders of R9. -/

namespace Sys2Proof.Machine

/-! ## The fields of an answered and of a rejected state -/

section
variable (s : State)

@[simp] theorem State.answered_crc (rdata : Word) : (s.answered rdata).crc = s.crc := rfl
@[simp] theorem State.answered_len (rdata : Word) : (s.answered rdata).len = s.len := rfl
@[simp] theorem State.answered_buf (rdata : Word) : (s.answered rdata).buf = s.buf := rfl
@[simp] theorem State.answered_err (rdata : Word) : (s.answered rdata).err = s.err := rfl
@[simp] theorem State.answered_first (rdata : Word) : (s.answered rdata).first = s.first := rfl
@[simp] theorem State.answered_cfg (rdata : Word) : (s.answered rdata).cfg = s.cfg := rfl
@[simp] theorem State.answered_port (rdata : Word) : (s.answered rdata).port = s.port := rfl
@[simp] theorem State.answered_responses (rdata : Word) :
    (s.answered rdata).responses = s.responses ++ [⟨0#4, rdata⟩] := rfl

@[simp] theorem State.rejected_crc (code : Code) : (s.rejected code).crc = s.crc := rfl
@[simp] theorem State.rejected_len (code : Code) : (s.rejected code).len = s.len := rfl
@[simp] theorem State.rejected_buf (code : Code) : (s.rejected code).buf = s.buf := rfl
@[simp] theorem State.rejected_err (code : Code) : (s.rejected code).err = true := rfl
@[simp] theorem State.rejected_first (code : Code) :
    (s.rejected code).first = if s.err = true then s.first else code := rfl
@[simp] theorem State.rejected_cfg (code : Code) : (s.rejected code).cfg = s.cfg := rfl
@[simp] theorem State.rejected_port (code : Code) : (s.rejected code).port = s.port := rfl
@[simp] theorem State.rejected_responses (code : Code) :
    (s.rejected code).responses = s.responses ++ [⟨code, 0#32⟩] := rfl

end

/-! ## What one step does: an equation for each event, and the inversion -/

theorem step_idle {s : State} (hp : s.port = []) : step s = .next s := by
  simp only [step, hp]

theorem step_wait {s : State} {rest : List PortEvent} (hp : s.port = .wait :: rest) :
    step s = .next (s.setPort rest) := by
  simp only [step, hp]

theorem step_reset {s : State} {out : Option Command} {rest : List PortEvent} (hp : s.port = .reset out :: rest) :
    step s = .next (s.applyReset.setPort rest) := by
  simp only [step, hp]

theorem step_command {s : State} {c : Command} {rest : List PortEvent} {i : Instr} (hp : s.port = .command c :: rest)
    (hd : decode c = .ok i) : step s = exec i (s.setPort rest) := by
  simp only [step, hp, hd]

theorem step_illegal {s : State} {c : Command} {rest : List PortEvent} {why : Illegal}
    (hp : s.port = .command c :: rest) (hd : decode c = .error why) :
    step s = .next ((s.setPort rest).rejected 3#4) := by
  simp only [step, hp, hd, rejectIllegal_eq]

/-- The ways a step can answer a next state, by the event it takes from the port. -/
inductive Stepped (s : State) : State → Prop where
  | idle (hp : s.port = []) : Stepped s s
  | wait {rest : List PortEvent} (hp : s.port = .wait :: rest) : Stepped s (s.setPort rest)
  | reset {out : Option Command} {rest : List PortEvent} (hp : s.port = .reset out :: rest) :
      Stepped s (s.applyReset.setPort rest)
  | command {c : Command} {rest : List PortEvent} {i : Instr} {t : State} (hp : s.port = .command c :: rest)
      (hd : decode c = .ok i) (ht : exec i (s.setPort rest) = .next t) : Stepped s t
  | illegal {c : Command} {rest : List PortEvent} {why : Illegal} (hp : s.port = .command c :: rest)
      (hd : decode c = .error why) : Stepped s ((s.setPort rest).rejected 3#4)

/-- Everything a step that answers a next state can have done. -/
theorem step_next {s t : State} (h : step s = .next t) : Stepped s t := by
  cases hp : s.port with
  | nil => rw [step_idle hp] at h; cases h; exact .idle hp
  | cons ev rest =>
    cases ev with
    | wait => rw [step_wait hp] at h; cases h; exact .wait hp
    | reset out => rw [step_reset hp] at h; cases h; exact .reset hp
    | command c =>
      cases hd : decode c with
      | ok i => rw [step_command hp hd] at h; exact .command hp hd h
      | error why => rw [step_illegal hp hd] at h; cases h; exact .illegal hp hd

/-- Settles O6, by the equation of `step` at a command that decodes. -/
theorem stepRunsTheDecodedCommand : Obligations.StepRunsTheDecodedCommand :=
  fun _ _ _ _ hp hd => step_command hp hd

/-! ## What a success writes, field by field -/

/-- A success leaves the buffer alone, appends bytes for which there is room, or is BUF_CLEAR's (R22). -/
theorem Succeeds.buffer_cases {s u : State} {i : Instr} {rdata : Word} (h : Succeeds s i u rdata) :
    (u.len = s.len ∧ u.buf = s.buf) ∨ (∃ l : List Byte, s.hasRoom l.length = true ∧ u = s.append l) ∨
      (i = .bufClear ∧ u = s.clearBuffer) := by
  cases h with
  | nop | crcInit | crcByte | crcBuf | crcRead | statRead | statClear | bufRead => exact .inl ⟨rfl, rfl⟩
  | encInt _ _ _ _ _ _ hr => exact .inr (.inl ⟨_, by rwa [beBytes_length], rfl⟩)
  | encFloat data hr => exact .inr (.inl ⟨floatBytes (floatOperand data), hr, rfl⟩)
  | encText _ _ hL _ hr => exact .inr (.inl ⟨_, by rwa [textField_length hL], rfl⟩)
  | crcEmit hr => exact .inr (.inl ⟨le2 s.crc, hr, rfl⟩)
  | bufClear => exact .inr (.inr ⟨rfl, rfl⟩)

/-- A success leaves `ERR` and `FIRST` alone, or is STAT_CLEAR's (R25, R26). -/
theorem Succeeds.sticky_cases {s u : State} {i : Instr} {rdata : Word} (h : Succeeds s i u rdata) :
    (u.err = s.err ∧ u.first = s.first) ∨ (i = .statClear ∧ u.err = false ∧ u.first = 0#4) := by
  cases h with
  | statClear => exact .inr ⟨rfl, rfl, rfl⟩
  | _ => exact .inl ⟨rfl, rfl⟩

theorem Succeeds.cfg_eq {s u : State} {i : Instr} {rdata : Word} (h : Succeeds s i u rdata) : u.cfg = s.cfg := by
  cases h <;> rfl

theorem Succeeds.responses_eq {s u : State} {i : Instr} {rdata : Word} (h : Succeeds s i u rdata) :
    u.responses = s.responses := by
  cases h <;> rfl

/-! ## The bytes below `LEN` -/

theorem State.append_len_le {s : State} {l : List Byte} (h : s.hasRoom l.length = true) :
    s.len.toNat ≤ (s.append l).len.toNat := by
  rw [State.append_len_toNat h]; exact Nat.le_add_right ..

theorem State.append_read_below {s : State} (l : List Byte) {a : Nat} (h : a < s.len.toNat) :
    (s.append l).buf.read a = s.buf.read a :=
  Memory.read_writeList_other s.buf l (.inl h)

/-- Settles O32: a failure and most successes leave `LEN` and `BUF` alone, and the others append. -/
theorem bytesBelowLenAreKept : Obligations.BytesBelowLenAreKept := by
  intro i s t hi h
  rcases exec_next h with ⟨e, -, rfl⟩ | ⟨u, rdata, hu, rfl⟩
  · exact ⟨Nat.le_refl _, fun _ _ => rfl⟩
  · rw [State.answered_len, State.answered_buf]
    rcases hu.buffer_cases with ⟨hlen, hbuf⟩ | ⟨l, hr, rfl⟩ | ⟨hclear, -⟩
    · rw [hlen, hbuf]; exact ⟨Nat.le_refl _, fun _ _ => rfl⟩
    · exact ⟨State.append_len_le hr, fun _ ha => State.append_read_below l ha⟩
    · exact absurd hclear hi

/-! ## The invariant, part by part -/

theorem State.BufferInv.congr {s u : State} (h : s.BufferInv) (hlen : u.len = s.len) (hbuf : u.buf = s.buf)
    (hcfg : u.cfg = s.cfg) : u.BufferInv := by
  simpa only [State.BufferInv, hlen, hbuf, hcfg] using h

/-- With room, an append keeps `LEN` within `BUF_CAP` and the buffer filled exactly below it (R48). -/
theorem State.BufferInv.append {s : State} {l : List Byte} (h : s.BufferInv) (hr : s.hasRoom l.length = true) :
    (s.append l).BufferInv := by
  unfold State.BufferInv
  rw [State.append_len_toNat hr]
  exact ⟨(s.hasRoom_iff _).mp hr, Memory.writeList_range l h.2⟩

theorem State.bufferInv_of_empty {s : State} (hlen : s.len = 0#16) (hbuf : s.buf = []) : s.BufferInv := by
  simp [State.BufferInv, hlen, hbuf]

theorem State.StickyInv.congr {s u : State} (h : s.StickyInv) (herr : u.err = s.err) (hfirst : u.first = s.first) :
    u.StickyInv := by
  simpa only [State.StickyInv, herr, hfirst] using h

theorem State.stickyInv_of_clear {s : State} (herr : s.err = false) (hfirst : s.first = 0#4) : s.StickyInv := by
  simp [State.StickyInv, herr, hfirst]

/-- A failure leaves `FIRST` at the code it had or at the new one, each 1 to 6 (R176). -/
theorem State.StickyInv.rejected {s : State} {code : Code} (h : s.StickyInv)
    (hcode : 1 ≤ code.toNat ∧ code.toNat ≤ 6) : (s.rejected code).StickyInv := by
  cases herr : s.err with
  | true => simpa [State.StickyInv, herr] using h
  | false => simpa [State.StickyInv, herr] using hcode

/-- One legal response more keeps all responses legal. -/
theorem State.ResponsesInv.of_append {s u : State} {r : Response} (h : s.ResponsesInv)
    (hu : u.responses = s.responses ++ [r]) (hr : r.code.toNat ≤ 6 ∧ (r.code ≠ 0#4 → r.rdata = 0#32)) :
    u.ResponsesInv := by
  intro r' hr'
  rw [hu, List.mem_append, List.mem_singleton] at hr'
  rcases hr' with hold | rfl
  · exact h r' hold
  · exact hr

/-- The codes of R171 that stand for an error are 1 to 6. -/
theorem ErrorKind.code_range (e : ErrorKind) : 1 ≤ e.code.toNat ∧ e.code.toNat ≤ 6 := by
  cases e <;> decide

/-! ## The invariant, kept by every operation, every command and every step -/

theorem State.Inv.setPort {s : State} (h : s.Inv) (rest : List PortEvent) : (s.setPort rest).Inv := h

theorem State.Inv.applyReset {s : State} (h : s.Inv) : s.applyReset.Inv := by
  obtain ⟨hcfg, -, -, hresp⟩ := h
  exact ⟨hcfg, State.bufferInv_of_empty rfl rfl, State.stickyInv_of_clear rfl rfl, hresp⟩

theorem State.Inv.rejected {s : State} (h : s.Inv) {code : Code} (hcode : 1 ≤ code.toNat ∧ code.toNat ≤ 6) :
    (s.rejected code).Inv := by
  obtain ⟨hcfg, hbuf, hsticky, hresp⟩ := h
  exact ⟨hcfg, hbuf, hsticky.rejected hcode, hresp.of_append rfl ⟨hcode.2, fun _ => rfl⟩⟩

theorem State.Inv.answered {s : State} (h : s.Inv) (rdata : Word) : (s.answered rdata).Inv := by
  obtain ⟨hcfg, hbuf, hsticky, hresp⟩ := h
  exact ⟨hcfg, hbuf, hsticky, hresp.of_append rfl ⟨Nat.zero_le _, fun hne => absurd rfl hne⟩⟩

theorem Succeeds.bufferInv {s u : State} {i : Instr} {rdata : Word} (h : Succeeds s i u rdata) (hs : s.BufferInv) :
    u.BufferInv := by
  rcases h.buffer_cases with ⟨hlen, hbuf⟩ | ⟨l, hr, rfl⟩ | ⟨-, rfl⟩
  · exact hs.congr hlen hbuf h.cfg_eq
  · exact hs.append hr
  · exact State.bufferInv_of_empty rfl rfl

theorem Succeeds.stickyInv {s u : State} {i : Instr} {rdata : Word} (h : Succeeds s i u rdata) (hs : s.StickyInv) :
    u.StickyInv := by
  rcases h.sticky_cases with ⟨herr, hfirst⟩ | ⟨-, herr, hfirst⟩
  · exact hs.congr herr hfirst
  · exact State.stickyInv_of_clear herr hfirst

theorem Succeeds.inv {s u : State} {i : Instr} {rdata : Word} (h : Succeeds s i u rdata) (hs : s.Inv) : u.Inv := by
  obtain ⟨hcfg, hbuf, hsticky, hresp⟩ := hs
  exact ⟨by rw [h.cfg_eq, hcfg], h.bufferInv hbuf, h.stickyInv hsticky, by rwa [State.ResponsesInv, h.responses_eq]⟩

theorem exec_inv {s t : State} {i : Instr} (hs : s.Inv) (h : exec i s = .next t) : t.Inv := by
  rcases exec_next h with ⟨e, -, rfl⟩ | ⟨u, rdata, hu, rfl⟩
  · exact hs.rejected e.code_range
  · exact (hu.inv hs).answered rdata

theorem step_inv {s t : State} (hs : s.Inv) (h : step s = .next t) : t.Inv := by
  cases step_next h with
  | idle => exact hs
  | wait => exact hs.setPort _
  | reset => exact hs.applyReset.setPort _
  | command _ _ ht => exact exec_inv (hs.setPort _) ht
  | illegal => exact (hs.setPort _).rejected ErrorKind.illegalCommand.code_range

/-- Settles O43: each event of the port keeps the invariant, a command by the cases of `exec_next`. -/
theorem invariantKeptByEveryStep : Obligations.InvariantKeptByEveryStep :=
  fun _ _ hs h => step_inv hs h

/-! ## The byte orders of R9 -/

/-- `x mod 2^(8*W)` is never negative, so the natural number `reduceTo` takes it for is the integer itself (R8). -/
theorem reduceTo_cast (W : Nat) (x : Int) : (reduceTo W x : Int) = x % 2 ^ (8 * W) :=
  Int.toNat_of_nonneg (Int.emod_nonneg x (by positivity))

/-- Byte `i` of `BE_W(x)` as a number, in the integer arithmetic of R9. -/
theorem beBytes_toNat_getElem? (W : Nat) (x : Int) {i : Nat} (hi : i < W) :
    ((beBytes W x).map BitVec.toNat)[i]? = some (((x % 2 ^ (8 * W)) / 2 ^ (8 * (W - 1 - i)) % 256).toNat) := by
  have hcast : x % 2 ^ (8 * W) / 2 ^ (8 * (W - 1 - i)) % 256
      = ((reduceTo W x / 2 ^ (8 * (W - 1 - i)) % 256 : Nat) : Int) := by
    rw [← reduceTo_cast]; norm_cast
  rw [hcast, Int.toNat_natCast]
  simp [beBytes, hi]

/-- Settles O20, byte by byte from `beBytes_toNat_getElem?`. -/
theorem byteOrdersOfIntegers : Obligations.ByteOrdersOfIntegers :=
  ⟨fun W x _ => ⟨beBytes_length W x, fun _ hi => beBytes_toNat_getElem? W x hi⟩, fun _ => rfl⟩

end Sys2Proof.Machine

/-! PROOFS. The family 10_state.md: who writes `CRC` (R21), what an accepted command leaves of `ERR` and `FIRST`
(R25, R26), the buffer's canonical form (R23), and where the model's one fault comes from. -/

namespace Sys2Proof.Machine

/-! ## The response of a command -/

/-- A command gets one response: the last one tells its code and read data. -/
theorem AnsweredWith.unique {s t : State} {code code' : Code} {rdata rdata' : Word} (h : AnsweredWith s t code rdata)
    (h' : AnsweredWith s t code' rdata') : code = code' ∧ rdata = rdata' := by
  simpa using h.symm.trans h'

theorem State.rejected_answeredWith (s : State) (code : Code) : AnsweredWith s (s.rejected code) code 0#32 := rfl

theorem Succeeds.answeredWith {s u : State} {i : Instr} {rdata : Word} (h : Succeeds s i u rdata) :
    AnsweredWith s (u.answered rdata) 0#4 rdata := by
  rw [AnsweredWith, State.answered_responses, h.responses_eq]

/-- No error has the code of a success (R171). -/
theorem ErrorKind.code_ne_ok (e : ErrorKind) : e.code ≠ 0#4 := by
  cases e <;> decide

/-- What a step that accepts a command has done: rejected it, an illegal word among the rejected, or performed it. -/
theorem step_command_next {s t : State} {c : Command} {rest : List PortEvent} (hp : s.port = .command c :: rest)
    (h : step s = .next t) :
    (∃ e : ErrorKind, t = (s.setPort rest).rejected e.code) ∨
      (∃ i u rdata, decode c = .ok i ∧ Succeeds (s.setPort rest) i u rdata ∧ t = u.answered rdata) := by
  cases hd : decode c with
  | error why =>
    rw [step_illegal hp hd] at h
    cases h
    exact .inl ⟨.illegalCommand, rfl⟩
  | ok i =>
    rw [step_command hp hd] at h
    rcases exec_next h with ⟨e, -, ht⟩ | ⟨u, rdata, hu, ht⟩
    · exact .inl ⟨e, ht⟩
    · exact .inr ⟨i, u, rdata, rfl, hu, ht⟩

/-! ## Who writes `CRC` -/

/-- A success leaves `CRC` alone, or is one of the three of R21 and reads nothing out. -/
theorem Succeeds.crc_cases {s u : State} {i : Instr} {rdata : Word} (h : Succeeds s i u rdata) :
    u.crc = s.crc ∨ ((i = .crcInit ∨ (∃ data, i = .crcByte data) ∨ ∃ O, i = .crcBuf O) ∧ rdata = 0#32) := by
  cases h with
  | crcInit => exact .inr ⟨.inl rfl, rfl⟩
  | crcByte data => exact .inr ⟨.inr (.inl ⟨data, rfl⟩), rfl⟩
  | crcBuf O => exact .inr ⟨.inr (.inr ⟨O, rfl⟩), rfl⟩
  | _ => exact .inl rfl

/-- Settles O33: a failure leaves `CRC` alone, and so does every success but the three of `Succeeds.crc_cases`. -/
theorem onlyCrcCommandsWriteCrc : Obligations.OnlyCrcCommandsWriteCrc := by
  intro i s t h hne
  rcases exec_next h with ⟨e, -, rfl⟩ | ⟨u, rdata, hu, rfl⟩
  · exact absurd (State.rejected_crc s e.code) hne
  · rcases hu.crc_cases with hcrc | ⟨hi, rfl⟩
    · exact absurd hcrc hne
    · exact ⟨hi, hu.answeredWith⟩

/-! ## `ERR` and `FIRST` -/

/-- Settles O34: a rejected command is R176's, and of the successes only STAT_CLEAR writes `ERR` or `FIRST`. -/
theorem failingCommandChangesOnlyTheStickyState : Obligations.FailingCommandChangesOnlyTheStickyState := by
  intro s t c rest hp h
  rcases step_command_next hp h with ⟨e, rfl⟩ | ⟨i, u, rdata, hd, hu, rfl⟩
  · exact ⟨⟨e.code, 0#32⟩, rfl, fun _ => rfl, fun hok => absurd hok e.code_ne_ok⟩
  · refine ⟨⟨0#4, rdata⟩, hu.answeredWith, fun hne => absurd rfl hne, fun _ hclear => ?_⟩
    rcases hu.sticky_cases with hkept | ⟨rfl, -⟩
    · exact hkept
    · exact absurd hd hclear

/-- A command answered with a code other than `OK` leaves `ERR` set. -/
theorem err_of_step_failed {s t : State} {c : Command} {rest : List PortEvent} {code : Code} {rdata : Word}
    (hp : s.port = .command c :: rest) (h : step s = .next t) (ha : AnsweredWith s t code rdata) (hne : code ≠ 0#4) :
    t.err = true := by
  rcases step_command_next hp h with ⟨e, rfl⟩ | ⟨i, u, rdata', -, hu, rfl⟩
  · rfl
  · exact absurd (AnsweredWith.unique ha hu.answeredWith).1 hne

/-- An instruction that finds `ERR` set and leaves it clear is STAT_CLEAR. -/
theorem eq_statClear_of_err_cleared {i : Instr} {s t : State} (herr : s.err = true) (h : exec i s = .next t)
    (hclear : t.err = false) : i = .statClear := by
  rcases exec_next h with ⟨e, -, rfl⟩ | ⟨u, rdata, hu, rfl⟩
  · simp at hclear
  · rcases hu.sticky_cases with ⟨hkept, -⟩ | ⟨hi, -⟩
    · simp [hkept, herr] at hclear
    · exact hi

/-- Settles O35: the failing commands by their response, and the clearing of `ERR` by the event the step takes. -/
theorem errStaysSetUntilCleared : Obligations.ErrStaysSetUntilCleared := by
  refine ⟨fun s t c rest code rdata hp h ha hne => err_of_step_failed hp h ha hne, fun s t herr h hclear => ?_⟩
  cases step_next h with
  | idle | wait => simp [herr] at hclear
  | reset hp => exact .inr ⟨_, _, hp⟩
  | command hp hd ht =>
    obtain rfl := eq_statClear_of_err_cleared ((State.setPort_err ..).trans herr) ht hclear
    exact .inl ⟨_, _, hp, hd⟩
  | illegal => simp at hclear

/-! ## The buffer's canonical form -/

theorem Memory.wf_nil : Memory.wf [] = true := by decide

theorem Succeeds.buf_wf {s u : State} {i : Instr} {rdata : Word} (h : Succeeds s i u rdata) (hs : s.buf.wf = true) :
    u.buf.wf = true := by
  rcases h.buffer_cases with ⟨-, hbuf⟩ | ⟨l, -, rfl⟩ | ⟨-, rfl⟩
  · rwa [hbuf]
  · exact Memory.writeList_wf l s.len.toNat hs
  · exact Memory.wf_nil

theorem exec_buf_wf {s t : State} {i : Instr} (h : exec i s = .next t) (hs : s.buf.wf = true) : t.buf.wf = true := by
  rcases exec_next h with ⟨e, -, rfl⟩ | ⟨u, rdata, hu, rfl⟩
  · exact hs
  · exact hu.buf_wf hs

/-- Settles O44: a reset empties the buffer, and a command leaves it, writes into it in order, or empties it. -/
theorem bufferStaysCanonical : Obligations.BufferStaysCanonical := by
  intro s t hs h
  cases step_next h with
  | idle | wait | illegal => exact hs
  | reset => exact Memory.wf_nil
  | command _ _ ht => exact exec_buf_wf ht hs

/-! ## The model's one fault -/

/-- Settles O46, by the three outcomes of `exec_cases`: a failure and a success answer a next state. -/
theorem faultOnlyOnAnAbsentByte : Obligations.FaultOnlyOnAnAbsentByte := by
  intro i s
  rcases exec_cases i s with ⟨e, -, h⟩ | ⟨u, rdata, -, h⟩ | habsent
  · exact .inl ⟨_, h⟩
  · exact .inl ⟨_, h⟩
  · exact .inr habsent

end Sys2Proof.Machine

/-! PROOFS. The family 30_encoding.md: the decoder as one rule for every row of the opcode table (R66, R67), encoding
and decoding as inverses (R75), which operands a command reads (R68, R69), and the pseudo-instructions of the CRC
trailer (R76, R132). -/

namespace Sys2Proof

/-! ## The decoder, one rule for every row of the opcode table -/

/-- The row of a mnemonic (R66); `row_mem` says that the table has one. -/
def Mnemonic.row (m : Mnemonic) : TableRow := (opcodeTable.find? (·.mnemonic = m)).getD ⟨m, 0, 0⟩

theorem Mnemonic.row_mem (m : Mnemonic) : m.row ∈ opcodeTable := by
  cases m <;> decide

theorem eq_row_of_mem : ∀ r ∈ opcodeTable, r = r.mnemonic.row := by decide

/-- Rows differ in their `OP` (R66). -/
theorem opField_pattern_ne :
    ∀ r ∈ opcodeTable, ∀ r' ∈ opcodeTable, r ≠ r' → opField r.pattern ≠ opField r'.pattern := by
  decide

/-- An opcode is that of a row, or one of the reserved 0xD, 0xE and 0xF (R70, R71). -/
theorem opcode_cases : ∀ op : BitVec 4, 0xD ≤ op.toNat ∨ ∃ r ∈ opcodeTable, op = opField r.pattern := by
  decide

/-- The fields, each as its lowest bit and its length, that a command does not use (R60, R67). -/
def Mnemonic.unusedFields : Mnemonic → List (Nat × Nat)
  | .nop => [(0, 32)]
  | .encInt => [(6, 2), (16, 16)]
  | .encFloat | .encText => [(4, 4), (16, 16)]
  | .crcBuf | .bufRead => [(4, 12)]
  | _ => [(4, 28)]

/-- Every bit the command does not use is 0 (R67). -/
def Mnemonic.unusedZero (m : Mnemonic) (w : Word) : Bool := m.unusedFields.all fun f => bits w f.1 f.2 == 0

/-- The instruction of a mnemonic, its fields and operands taken from the command (R60, R68, R69). -/
def Mnemonic.instr : Mnemonic → Command → Instr
  | .nop, _ => .nop
  | .encInt, c => .encInt (signField c.word) (policyField c.word) (widthField c.word) c.data
  | .encFloat, c => .encFloat (widthField c.word) c.data
  | .encText, c => .encText (widthField c.word) c.text
  | .bufClear, _ => .bufClear
  | .crcInit, _ => .crcInit
  | .crcByte, c => .crcByte c.data
  | .crcBuf, c => .crcBuf (offsetField c.word)
  | .crcEmit, _ => .crcEmit
  | .crcRead, _ => .crcRead
  | .statRead, _ => .statRead
  | .statClear, _ => .statClear
  | .bufRead, c => .bufRead (offsetField c.word)

@[simp] theorem Mnemonic.instr_mnemonic (m : Mnemonic) (c : Command) : (m.instr c).mnemonic = m := by
  cases m <;> rfl

theorem bits_whole (w : Word) : bits w 0 32 = w := BitVec.extractLsb'_eq_self

/-- The decoder at an opcode of the table: the row's instruction, unless an unused bit is set. -/
theorem decode_of_opField {m : Mnemonic} {c : Command} (hop : opField c.word = opField m.row.pattern) :
    decode c = ifUnusedZero (m.unusedZero c.word) (m.instr c) := by
  simp only [decode, hop, Mnemonic.unusedZero]
  cases m with
  | nop => simp only [Mnemonic.unusedFields, List.all_cons, List.all_nil, Bool.and_true, bits_whole]; rfl
  | _ => simp only [Mnemonic.unusedFields, List.all_cons, List.all_nil, Bool.and_true]; rfl

theorem decode_of_reserved {c : Command} (h : 0xD ≤ (opField c.word).toNat) : decode c = .error .reservedOpcode := by
  have reserved : ∀ op : BitVec 4, 0xD ≤ op.toNat → op = 0xD#4 ∨ op = 0xE#4 ∨ op = 0xF#4 := by decide
  rcases reserved _ h with hop | hop | hop <;> simp only [decode, hop] <;> rfl

/-- What a command that decodes decodes to: the instruction of the row with its opcode. -/
theorem decode_eq_ok {c : Command} {i : Instr} (h : decode c = .ok i) :
    ∃ m : Mnemonic, opField c.word = opField m.row.pattern ∧ m.unusedZero c.word = true ∧ m.instr c = i := by
  rcases opcode_cases (opField c.word) with hres | ⟨r, hr, hop⟩
  · rw [decode_of_reserved hres] at h; cases h
  · rw [eq_row_of_mem r hr] at hop
    rw [decode_of_opField hop, ifUnusedZero_eq_ok] at h
    exact ⟨_, hop, h⟩

/-! ## The row's match is the pseudocode's check of the opcode and the unused bits -/

/-- The mask of one field of the word. -/
def fieldMask (lo len : Nat) : Word := (BitVec.allOnes len).setWidth 32 <<< lo

/-- Two words agree under a field's mask exactly when the field reads the same in both. -/
theorem and_fieldMask_eq_iff (w v : Word) (lo len : Nat) :
    w &&& fieldMask lo len = v &&& fieldMask lo len ↔ bits w lo len = bits v lo len := by
  constructor
  · intro h
    ext i hi
    have hbit := congrArg (·.getLsbD (lo + i)) h
    simp only [fieldMask, bits, BitVec.getLsbD_and, BitVec.getLsbD_shiftLeft, BitVec.getLsbD_setWidth,
      BitVec.getLsbD_allOnes, BitVec.getElem_extractLsb'] at hbit ⊢
    by_cases hlt : lo + i < 32
    · simpa [hi, hlt, show i < 32 by omega] using hbit
    · rw [BitVec.getLsbD_of_ge _ _ (by omega), BitVec.getLsbD_of_ge _ _ (by omega)]
  · intro h
    ext i hi
    have hbit (hlo : lo ≤ i) (hlen : i - lo < len) : w[i] = v[i] := by
      have := congrArg (·.getLsbD (i - lo)) h
      simpa [bits, hlen, Nat.add_sub_cancel' hlo, hi] using this
    simp only [fieldMask, BitVec.getElem_and, BitVec.getElem_shiftLeft]
    grind

theorem and_or_eq_iff (w v a b : Word) :
    w &&& (a ||| b) = v &&& (a ||| b) ↔ w &&& a = v &&& a ∧ w &&& b = v &&& b := by
  constructor
  · intro h
    have sub {x : Word} (hx : (a ||| b) &&& x = x) : w &&& x = v &&& x := by
      rw [← hx, ← BitVec.and_assoc, h, BitVec.and_assoc]
    exact ⟨sub (by ext; simp; grind), sub (by ext; simp; grind)⟩
  · rintro ⟨ha, hb⟩
    rw [BitVec.and_or_distrib_left, ha, hb, BitVec.and_or_distrib_left]

/-- The mask of several fields together. -/
def fieldsMask (fields : List (Nat × Nat)) : Word := fields.foldr (fun f mask => fieldMask f.1 f.2 ||| mask) 0

theorem and_fieldsMask_eq_iff (w v : Word) (fields : List (Nat × Nat)) :
    w &&& fieldsMask fields = v &&& fieldsMask fields ↔ ∀ f ∈ fields, bits w f.1 f.2 = bits v f.1 f.2 := by
  induction fields with
  | nil => simp [fieldsMask]
  | cons f fields ih =>
    rw [List.forall_mem_cons, ← ih, ← and_fieldMask_eq_iff]
    exact and_or_eq_iff ..

theorem Mnemonic.row_mask (m : Mnemonic) : m.row.mask = fieldsMask ((0, 4) :: m.unusedFields) := by
  cases m <;> decide

theorem Mnemonic.pattern_and_mask (m : Mnemonic) : m.row.pattern &&& m.row.mask = m.row.pattern := by
  cases m <;> decide

theorem Mnemonic.unusedZero_pattern (m : Mnemonic) : m.unusedZero m.row.pattern = true := by
  cases m <;> decide

/-- A word matches a row exactly when it has the row's opcode and no bit set that the command does not use. -/
theorem Mnemonic.matches_iff (m : Mnemonic) (w : Word) :
    w &&& m.row.mask = m.row.pattern ↔ opField w = opField m.row.pattern ∧ m.unusedZero w = true := by
  have hzero := m.unusedZero_pattern
  simp only [Mnemonic.unusedZero, List.all_eq_true, beq_iff_eq] at hzero ⊢
  calc w &&& m.row.mask = m.row.pattern
    _ ↔ w &&& m.row.mask = m.row.pattern &&& m.row.mask := by rw [m.pattern_and_mask]
    _ ↔ opField w = opField m.row.pattern ∧ ∀ f ∈ m.unusedFields, bits w f.1 f.2 = bits m.row.pattern f.1 f.2 := by
      rw [m.row_mask, and_fieldsMask_eq_iff, List.forall_mem_cons]; rfl
    _ ↔ _ := by simp +contextual [hzero]

theorem opField_of_matches {r : TableRow} (hr : r ∈ opcodeTable) {w : Word} (h : w &&& r.mask = r.pattern) :
    opField w = opField r.pattern := by
  rw [eq_row_of_mem r hr] at h ⊢
  exact ((Mnemonic.matches_iff _ w).mp h).1

theorem decode_of_matches {r : TableRow} (hr : r ∈ opcodeTable) {c : Command} (h : c.word &&& r.mask = r.pattern) :
    decode c = .ok (r.mnemonic.instr c) := by
  rw [eq_row_of_mem r hr, Mnemonic.matches_iff] at h
  rw [decode_of_opField h.1, ifUnusedZero_eq_ok]
  exact ⟨h.2, rfl⟩

/-! ## Illegal words -/

namespace Machine

theorem isIllegal_of_decode {c : Command} {why : Illegal} (h : decode c = .error why) : IsIllegal c :=
  ⟨⟨why, h⟩, fun _ _ hp => step_illegal hp h⟩

theorem isIllegal_of_reserved {c : Command} (h : 0xD ≤ (opField c.word).toNat) : IsIllegal c :=
  isIllegal_of_decode (decode_of_reserved h)

theorem isIllegal_of_unused_set {m : Mnemonic} {c : Command} (hop : opField c.word = opField m.row.pattern)
    (hset : m.unusedZero c.word = false) : IsIllegal c :=
  isIllegal_of_decode ((decode_of_opField hop).trans (ifUnusedZero_eq_error.mpr ⟨hset, rfl⟩))

theorem isIllegal_of_not_matches {r : TableRow} (hr : r ∈ opcodeTable) {c : Command}
    (hop : opField c.word = opField r.pattern) (h : c.word &&& r.mask ≠ r.pattern) : IsIllegal c := by
  rw [eq_row_of_mem r hr] at hop h
  refine isIllegal_of_unused_set hop (Bool.eq_false_iff.mpr fun hz => h ?_)
  exact (Mnemonic.matches_iff _ _).mpr ⟨hop, hz⟩

/-- Settles O4: a reserved opcode has no row, and a bit a row does not allow is one its command does not use. -/
theorem reservedEncodingsRaiseIllegalCommand : Obligations.ReservedEncodingsRaiseIllegalCommand := by
  rintro c (hres | ⟨r, hr, hop, hne⟩)
  · exact isIllegal_of_reserved hres
  · exact isIllegal_of_not_matches hr hop hne

/-- Settles O3: rows differ in their `OP`, and a word of no row has a reserved opcode or misses the row of its own. -/
theorem decodeFollowsTheOpcodeTable : Obligations.DecodeFollowsTheOpcodeTable := by
  refine ⟨opField_pattern_ne, fun c r hr hmatch => ⟨?_, fun r' hr' hmatch' => ?_⟩, fun c hnone => ?_⟩
  · exact ⟨_, decode_of_matches hr hmatch, r.mnemonic.instr_mnemonic c⟩
  · by_contra hne
    exact opField_pattern_ne r' hr' r hr hne
      ((opField_of_matches hr' hmatch').symm.trans (opField_of_matches hr hmatch))
  · rcases opcode_cases (opField c.word) with hres | ⟨r, hr, hop⟩
    · exact isIllegal_of_reserved hres
    · exact isIllegal_of_not_matches hr hop (hnone r hr)

end Machine

/-! ## Decoding an encoded instruction -/

theorem opField_word_toNat (i : Instr) : Laws.EncodedOpcode.Statement i :=
  match i with
  | .nop => Laws.EncodedOpcode.nop
  | .encInt S T W data => Laws.EncodedOpcode.encInt S T W data
  | .encFloat W data => Laws.EncodedOpcode.encFloat W data
  | .encText W text => Laws.EncodedOpcode.encText W text
  | .bufClear => Laws.EncodedOpcode.bufClear
  | .crcInit => Laws.EncodedOpcode.crcInit
  | .crcByte data => Laws.EncodedOpcode.crcByte data
  | .crcBuf O => Laws.EncodedOpcode.crcBuf O
  | .crcEmit => Laws.EncodedOpcode.crcEmit
  | .crcRead => Laws.EncodedOpcode.crcRead
  | .statRead => Laws.EncodedOpcode.statRead
  | .statClear => Laws.EncodedOpcode.statClear
  | .bufRead O => Laws.EncodedOpcode.bufRead O

/-- The opcode map of R70 and the table of R66 give every command the same opcode. -/
theorem Instr.opcode_eq_pattern (i : Instr) : (opField i.mnemonic.row.pattern).toNat = i.opcode := by
  cases i <;> rfl

theorem Instr.opField_word {i : Instr} (h : i.wellFormed = true) :
    opField i.word = opField i.mnemonic.row.pattern :=
  BitVec.eq_of_toNat_eq ((opField_word_toNat i h).trans i.opcode_eq_pattern.symm)

/-- The `S` bit of a word as the number R75 writes. -/
theorem signBit_signField (w : Word) : signBit (signField w) = (bits w 4 1).toNat := by
  have h : ∀ b : BitVec 1, signBit (if b = 1#1 then .signed else .unsigned) = b.toNat := by decide
  exact h _

/-- The `T` bit of a word as the number R75 writes. -/
theorem policyBit_policyField (w : Word) : policyBit (policyField w) = (bits w 5 1).toNat := by
  have h : ∀ b : BitVec 1, policyBit (if b = 1#1 then .truncating else .strict) = b.toNat := by decide
  exact h _

theorem signBit_inj {S S' : Signedness} (h : signBit S = signBit S') : S = S' := by
  cases S <;> cases S' <;> trivial

theorem policyBit_inj {T T' : Policy} (h : policyBit T = policyBit T') : T = T' := by
  cases T <;> cases T' <;> trivial

section
variable {op s t w o : Nat} (hop : op < 16) (hs : s < 2) (ht : t < 2) (hw : w < 256) (ho : o < 65536)
include hop hs ht hw ho

/-- The fields of a command word, read back (R60, R75). -/
theorem bits_commandWord_toNat (lo len : Nat) : (bits (commandWord op s t w o) lo len).toNat
    = (op + 16 * s + 32 * t + 256 * w + 65536 * o) / 2 ^ lo % 2 ^ len := by
  rw [bits_toNat, commandWord_toNat hop hs ht hw ho]

theorem signBit_commandWord : signBit (signField (commandWord op s t w o)) = s := by
  rw [signBit_signField, bits_commandWord_toNat hop hs ht hw ho]; omega

theorem policyBit_commandWord : policyBit (policyField (commandWord op s t w o)) = t := by
  rw [policyBit_policyField, bits_commandWord_toNat hop hs ht hw ho]; omega

theorem widthField_commandWord : widthField (commandWord op s t w o) = w := by
  rw [widthField, bits_commandWord_toNat hop hs ht hw ho]; omega

theorem offsetField_commandWord : offsetField (commandWord op s t w o) = o := by
  rw [offsetField, bits_commandWord_toNat hop hs ht hw ho]; omega

/-- A word whose fields sum to a command word's is that word. -/
theorem commandWord_eq {v : Word} (h : op + 16 * s + 32 * t + 256 * w + 65536 * o = v.toNat) :
    commandWord op s t w o = v :=
  BitVec.eq_of_toNat_eq ((commandWord_toNat hop hs ht hw ho).trans h)

end

/-- Every unused field of the word is 0 as a number. -/
theorem Mnemonic.unusedZero_iff (m : Mnemonic) (w : Word) :
    m.unusedZero w = true ↔ m.unusedFields.Forall fun f => w.toNat / 2 ^ f.1 % 2 ^ f.2 = 0 := by
  simp [Mnemonic.unusedZero, bits_eq_iff, List.forall_iff_forall_mem]

/-- The encoder writes no bit that the command does not use (R67, R75). -/
theorem Instr.unusedZero_word {i : Instr} (h : i.wellFormed = true) : i.mnemonic.unusedZero i.word = true := by
  rw [Mnemonic.unusedZero_iff]
  cases i with
  | encInt S T W data =>
    have hW := (widthFits_iff W).mp h
    have hS := signBit_lt S
    have hT := policyBit_lt T
    simp only [Instr.mnemonic, Mnemonic.unusedFields, List.Forall, Instr.word,
      commandWord_toNat (by decide : 1 < 16) hS hT hW (by decide : 0 < 65536)]
    omega
  | encFloat W | encText W =>
    have hW := (widthFits_iff W).mp h
    simp only [Instr.mnemonic, Mnemonic.unusedFields, List.Forall, Instr.word]
    rw [commandWord_toNat (by decide) (by decide) (by decide) hW (by decide)]
    omega
  | crcBuf O | bufRead O =>
    have hO := (offsetFits_iff O).mp h
    simp only [Instr.mnemonic, Mnemonic.unusedFields, List.Forall, Instr.word]
    rw [commandWord_toNat (by decide) (by decide) (by decide) (by decide) hO]
    omega
  | _ => simp only [Instr.mnemonic, Mnemonic.unusedFields, Instr.word]; decide

/-- The fields and operands of an encoded instruction, read back, make it up again (R75). -/
theorem Instr.instr_encode {i : Instr} (h : i.wellFormed = true) : i.mnemonic.instr (encode i) = i := by
  cases i with
  | encInt S T W data =>
    have hW := (widthFits_iff W).mp h
    have hS := signBit_lt S
    have hT := policyBit_lt T
    simp only [Instr.mnemonic, Mnemonic.instr, encode, Instr.word, Instr.dataOperand, Instr.encInt.injEq, and_true]
    exact ⟨signBit_inj (signBit_commandWord (by decide) hS hT hW (by decide)),
      policyBit_inj (policyBit_commandWord (by decide) hS hT hW (by decide)),
      widthField_commandWord (by decide) hS hT hW (by decide)⟩
  | encFloat W data =>
    have hW := (widthFits_iff W).mp h
    exact congrArg (Instr.encFloat · data) (widthField_commandWord (by decide) (by decide) (by decide) hW (by decide))
  | encText W text =>
    have hW := (widthFits_iff W).mp h
    exact congrArg (Instr.encText · text) (widthField_commandWord (by decide) (by decide) (by decide) hW (by decide))
  | crcBuf O =>
    have hO := (offsetFits_iff O).mp h
    exact congrArg Instr.crcBuf (offsetField_commandWord (by decide) (by decide) (by decide) (by decide) hO)
  | bufRead O =>
    have hO := (offsetFits_iff O).mp h
    exact congrArg Instr.bufRead (offsetField_commandWord (by decide) (by decide) (by decide) (by decide) hO)
  | _ => rfl

/-- Settles O1: an encoded word has its row's opcode and no unused bit set, and its fields read back. -/
theorem decodeOfEncodeIsTheInstruction : Obligations.DecodeOfEncodeIsTheInstruction := by
  intro i h
  rw [decode_of_opField (Instr.opField_word h), ifUnusedZero_eq_ok]
  exact ⟨Instr.unusedZero_word h, Instr.instr_encode h⟩

/-! ## Encoding a decoded instruction -/

theorem Mnemonic.instr_wellFormed (m : Mnemonic) (c : Command) : (m.instr c).wellFormed = true := by
  have hW : widthFits (widthField c.word) = true := (widthFits_iff _).mpr (bits c.word 8 8).isLt
  have hO : offsetFits (offsetField c.word) = true := (offsetFits_iff _).mpr (bits c.word 16 16).isLt
  cases m with
  | encInt | encFloat | encText => exact hW
  | crcBuf | bufRead => exact hO
  | _ => rfl

/-- With no unused bit set, a word is the sum of its opcode and of the fields its command uses (R60, R75). -/
theorem Mnemonic.word_instr {m : Mnemonic} {c : Command} (hop : opField c.word = opField m.row.pattern)
    (hz : m.unusedZero c.word = true) : (m.instr c).word = c.word := by
  have hOP : c.word.toNat / 2 ^ 0 % 2 ^ 4 = (m.instr c).opcode := by
    rw [← bits_toNat, ← Instr.opcode_eq_pattern, instr_mnemonic, ← hop, opField]
  have hS : signBit (signField c.word) = c.word.toNat / 2 ^ 4 % 2 ^ 1 := by rw [signBit_signField, bits_toNat]
  have hT : policyBit (policyField c.word) = c.word.toNat / 2 ^ 5 % 2 ^ 1 := by
    rw [policyBit_policyField, bits_toNat]
  have hW : widthField c.word = c.word.toNat / 2 ^ 8 % 2 ^ 8 := bits_toNat c.word 8 8
  have hO : offsetField c.word = c.word.toNat / 2 ^ 16 % 2 ^ 16 := bits_toNat c.word 16 16
  have hlt := c.word.isLt
  rw [Mnemonic.unusedZero_iff] at hz
  -- In each row, the opcode, the unused fields and the used ones make up all 32 bits.
  cases m
  all_goals
    simp only [Mnemonic.unusedFields, List.Forall] at hz
    simp only [Mnemonic.instr, Instr.opcode] at hOP
    apply commandWord_eq <;> omega

/-- The operands a decoded instruction carries are those its command reads (R68, R69). -/
theorem Mnemonic.operands_instr (m : Mnemonic) (c : Command) :
    (m.instr c).dataOperand = (if (m.instr c).opcode ∈ [0x1, 0x2, 0x6] then c.data else 0) ∧
      (m.instr c).textOperand = (if (m.instr c).opcode = 0x3 then c.text else []) := by
  cases m <;> exact ⟨rfl, rfl⟩

/-- Settles O2, from what the row of the word's opcode reads. -/
theorem decodedInstructionEncodesToItsWord : Obligations.DecodedInstructionEncodesToItsWord := by
  intro c i h
  obtain ⟨m, hop, hz, rfl⟩ := decode_eq_ok h
  exact ⟨m.instr_wellFormed c, Mnemonic.word_instr hop hz, m.operands_instr c⟩

/-- Settles O5: closed words, which the decoder evaluates. -/
theorem writtenOutWordsDecode : Obligations.WrittenOutWordsDecode :=
  ⟨rfl, rfl, rfl, rfl, rfl, rfl, rfl, rfl, rfl, rfl⟩

namespace Machine

/-! ## Operand bits no command reads -/

/-- Commands that agree in the word and in the operand bits a mnemonic reads are performed alike (R68, R69). -/
theorem exec_instr_congr (m : Mnemonic) {c c' : Command} (hword : c.word = c'.word)
    (hint : m = .encInt → c.data = c'.data)
    (hfloat : m = .encFloat → floatOperand c.data = floatOperand c'.data)
    (hbyte : m = .crcByte → byteOperand c.data = byteOperand c'.data)
    (htext : m = .encText → c.text = c'.text) (s : State) : exec (m.instr c) s = exec (m.instr c') s := by
  cases m with
  | encInt => simp only [Mnemonic.instr, hword, hint rfl]
  | encFloat => simp only [Mnemonic.instr, hword, exec, execEncFloat, hfloat rfl]
  | encText => simp only [Mnemonic.instr, hword, htext rfl]
  | crcByte => simp only [Mnemonic.instr, exec, execCrcByte, hbyte rfl]
  | crcBuf | bufRead => simp only [Mnemonic.instr, hword]
  | _ => rfl

/-- Settles O37: whether a word is legal depends on the word alone, and a legal one is performed alike. -/
theorem unreadOperandsHaveNoEffect : Obligations.UnreadOperandsHaveNoEffect := by
  intro s c c' rest hword hint hfloat hbyte htext
  rcases opcode_cases (opField c.word) with hres | ⟨r, hr, hop⟩
  · rw [step_illegal rfl (decode_of_reserved hres), step_illegal rfl (decode_of_reserved (hword ▸ hres))]
    rfl
  · rw [eq_row_of_mem r hr] at hop
    have hop' : opField c'.word = opField r.mnemonic.row.pattern := hword ▸ hop
    generalize r.mnemonic = m at hop hop'
    have hd := decode_of_opField hop
    have hd' := decode_of_opField hop'
    rw [← hword] at hd'
    cases hz : m.unusedZero c.word with
    | false =>
      simp only [ifUnusedZero, hz] at hd hd'
      rw [step_illegal rfl hd, step_illegal rfl hd']
      rfl
    | true =>
      simp only [ifUnusedZero, hz] at hd hd'
      rw [step_command rfl hd, step_command rfl hd']
      refine exec_instr_congr m hword ?_ ?_ ?_ ?_ _ <;> rintro rfl
      · exact hint hop
      · exact hfloat hop
      · exact hbyte hop
      · exact htext hop

/-! ## The residue of a message with its CRC behind it (R132) -/

/-- Rounds shift out low bits that are 0 and do nothing else (R121). -/
theorem crcRounds_eq_shift (n : Nat) (c : Half) (h : ∀ i, i < n → c.getLsbD i = false) : crcRounds n c = c >>> n := by
  induction n generalizing c with
  | zero => simp [crcRounds]
  | succ n ih =>
    have hround : crcRound c = c >>> 1 := by simp only [crcRound, h 0 (by omega)]; rfl
    have hlow (i : Nat) (hi : i < n) : (c >>> 1).getLsbD i = false := by
      rw [BitVec.getLsbD_ushiftRight]; exact h _ (by omega)
    rw [crcRounds, hround, ih _ hlow, ← BitVec.shiftRight_add, Nat.add_comm]

/-- Absorbing the running value's own low byte leaves its high byte. -/
theorem absorb_low_byte (c : Half) : absorb c (c.extractLsb' 0 8) = (c.extractLsb' 8 8).setWidth 16 := by
  rw [absorb, crcRounds_eq_shift]
  · ext i hi
    simp; grind
  · intro i hi
    simp; grind

/-- A running value followed by its own two bytes, low byte first, absorbs to 0. -/
theorem absorbList_le2_self (c : Half) : absorbList c (le2 c) = 0#16 := by
  have hzero : absorb ((c.extractLsb' 8 8).setWidth 16) (c.extractLsb' 8 8) = 0#16 := by
    rw [absorb, BitVec.xor_self]; decide
  simp only [absorbList, le2, List.foldl_cons, List.foldl_nil, absorb_low_byte, hzero]

theorem absorbList_append (c : Half) (l m : List Byte) : absorbList c (l ++ m) = absorbList (absorbList c l) m :=
  List.foldl_append

/-! ## The pseudo-instructions of the CRC (R76) -/

/-- The state after CRC_INIT and CRC_BUF over the bytes `l`. -/
def State.crcOver (l : List Byte) (s : State) : State :=
  (((s.setCrc 0xFFFF#16).answered 0).setCrc (absorbList 0xFFFF#16 l)).answered 0

theorem execList_crcInit_crcBuf {O : Nat} {l : List Byte} {s : State} (rest : List Instr) (hO : O ≤ s.len.toNat)
    (hlen : l.length = s.len.toNat - O) (hl : s.buf.Holds O l) :
    execList (.crcInit :: .crcBuf O :: rest) s = execList rest (s.crcOver l) := by
  have hinit : exec .crcInit s = .next ((s.setCrc 0xFFFF#16).answered 0) := rfl
  rw [execList_cons hinit]
  exact execList_cons (execCrcBuf_of_holds (s := (s.setCrc 0xFFFF#16).answered 0) hO hlen hl)

/-- Bytes that stand up to `LEN`, and the ones appended there, are held as one list. -/
theorem State.append_holds {O : Nat} {l l' : List Byte} {s : State} (hO : O ≤ s.len.toNat)
    (hlen : l.length = s.len.toNat - O) (hl : s.buf.Holds O l) : (s.append l').buf.Holds O (l ++ l') := by
  intro k hk
  rcases Nat.lt_or_ge k l.length with hlt | hge
  · rw [State.append_read_below l' (by omega), hl k hlt, List.getElem?_append_left hlt]
  · rw [List.length_append] at hk
    rw [List.getElem?_append_right hge, State.append_buf, show O + k = s.len.toNat + (k - l.length) by omega,
      Memory.read_writeList_at _ _ _ _ (by omega)]

/-- Settles O47, command by command. -/
theorem pseudoCrc16ReadsTheCrcOfTheBuffer : Obligations.PseudoCrc16ReadsTheCrcOfTheBuffer := by
  intro O s hs hO
  obtain ⟨l, hlen, hl⟩ := hs.exists_holds hO
  refine ⟨l, (s.crcOver l).answered ((s.crcOver l).crc.setWidth 32), hlen, hl,
    execList_crcInit_crcBuf [.crcRead] hO hlen hl, ?_⟩
  simp [State.crcOver]

/-- Settles O48: the second CRC_BUF absorbs the bytes of the first and then the trailer, and `absorbList_le2_self`
says what that leaves. -/
theorem receiverFindsZeroResidue : Obligations.ReceiverFindsZeroResidue := by
  intro O s hs hO hroom
  obtain ⟨l, hlen, hl⟩ := hs.exists_holds hO
  set u := s.crcOver l
  set v := (u.append (le2 u.crc)).answered 0
  have hemit : exec .crcEmit u = .next v := appendOrOverflow_room hroom
  have hvlen : v.len.toNat = s.len.toNat + 2 := State.append_len_toNat ((u.hasRoom_iff _).mpr hroom)
  have hrun : execList ((Pseudo.crc16Append O).expand ++ [.crcInit, .crcBuf O]) s
      = .next (v.crcOver (l ++ le2 u.crc)) := by
    calc execList ((Pseudo.crc16Append O).expand ++ [.crcInit, .crcBuf O]) s
      _ = execList [.crcEmit, .crcInit, .crcBuf O] u := execList_crcInit_crcBuf _ hO hlen hl
      _ = execList [.crcInit, .crcBuf O] v := execList_cons hemit
      _ = .next (v.crcOver (l ++ le2 u.crc)) :=
        execList_crcInit_crcBuf [] (by omega) (by simp [hvlen, hlen]; omega) (State.append_holds (s := u) hO hlen hl)
  refine ⟨_, hrun, ?_, hvlen⟩
  calc absorbList 0xFFFF#16 (l ++ le2 u.crc)
    _ = absorbList u.crc (le2 u.crc) := absorbList_append ..
    _ = 0#16 := absorbList_le2_self _

end Machine

end Sys2Proof

/-! PROOFS. The family 40_value_codec.md: each codec command's outcome (R82, R89, R93, R100, R106), read off the model's
`Fails` and `Succeeds`, and each word's decoding, read off the fields its command does not use (R67). -/

namespace Sys2Proof.Machine

/-! ## `Fails` and `Succeeds` say what `exec` answers -/

theorem State.hasRoom_eq_false_iff (s : State) (n : Nat) :
    s.hasRoom n = false ↔ s.cfg.bufCap.val < s.len.toNat + n := by
  rw [Bool.eq_false_iff, ne_eq, State.hasRoom_iff, Nat.not_le]

/-- ENC_INT past its width and range checks only appends (R82). -/
theorem exec_encInt_of_fits {S : Signedness} {T : Policy} {W : Nat} {data : Data} (s : State) (hW : W ≠ 0)
    (hv : T = .strict → representable S W (intOperand S data) = true) :
    exec (.encInt S T W data) s = appendOrOverflow (beBytes W (intOperand S data)) s := by
  simp only [exec, execEncInt, if_neg hW]
  exact if_neg (by simpa using hv)

/-- ENC_TEXT past its checks of the length and of the bytes only appends (R93). -/
theorem exec_encText_of_fits {W : Nat} {text : List Byte} {s : State} (hL : text.length ≤ W)
    (hb : s.cfg.textHigh = .reject → hasHighByte text = false) :
    exec (.encText W text) s = appendOrOverflow (textField W text) s := by
  simp only [exec, execEncText, if_neg (Nat.not_lt.mpr hL)]
  exact if_neg (by simpa using mt hb)

/-- A command that fails with an error answers R176's state for it. -/
theorem Fails.exec_eq {s : State} {i : Instr} {e : ErrorKind} (h : Fails s i e) :
    exec i s = .next (s.rejected e.code) := by
  have full {l : List Byte} {n : Nat} (hl : l.length = n) (hr : s.hasRoom n = false) :
      appendOrOverflow l s = .next (s.rejected 4#4) :=
    appendOrOverflow_full ((s.hasRoom_eq_false_iff _).mp (hl ▸ hr))
  cases h with
  | intZeroWidth => rfl
  | intRange S W data hW hv => simp [exec, execEncInt, hW, hv, fail_eq]
  | intOverflow S T W data hW hv hr => exact (exec_encInt_of_fits s hW hv).trans (full (beBytes_length ..) hr)
  | floatWidth W data hW => simp only [exec, execEncFloat, if_pos hW, fail_eq]
  | floatOverflow data hr => exact full (floatBytes_length _) hr
  | textTooLong W text hL => simp only [exec, execEncText, if_pos hL, fail_eq]
  | textNonAscii W text hL hb hp => simp [exec, execEncText, Nat.not_lt.mpr hL, hb, hp, fail_eq]
  | textOverflow W text hL hb hr => exact (exec_encText_of_fits hL hb).trans (full (textField_length hL) hr)
  | crcBufRange O hO => simp only [exec, execCrcBuf, if_pos hO, fail_eq]
  | emitOverflow hr => exact full (le2_length _) hr
  | bufReadRange O hO => simp only [exec, execBufRead, if_pos hO, fail_eq]

/-- A command that succeeds writes its state and responds with its read data. -/
theorem Succeeds.exec_eq {s u : State} {i : Instr} {rdata : Word} (h : Succeeds s i u rdata) :
    exec i s = .next (u.answered rdata) := by
  have room {l : List Byte} {n : Nat} (hl : l.length = n) (hr : s.hasRoom n = true) :
      appendOrOverflow l s = .next ((s.append l).answered 0) :=
    appendOrOverflow_room ((s.hasRoom_iff _).mp (hl ▸ hr))
  cases h with
  | encInt S T W data hW hv hr => exact (exec_encInt_of_fits s hW hv).trans (room (beBytes_length ..) hr)
  | encFloat data hr => exact room (floatBytes_length _) hr
  | encText W text hL hb hr => exact (exec_encText_of_fits hL hb).trans (room (textField_length hL) hr)
  | crcBuf O l hO hlen hl => exact execCrcBuf_of_holds hO hlen hl
  | crcEmit hr => exact room (le2_length _) hr
  | bufRead O b hO hb => exact execBufRead_of_read hO hb
  | _ => rfl

/-- A success that appends `l` leaves the state R10 describes. -/
theorem Succeeds.exec_appended {s : State} {i : Instr} {l : List Byte} (h : Succeeds s i (s.append l) 0)
    (hr : s.hasRoom l.length = true) : ∃ t, exec i s = .next t ∧ Appended s t l :=
  ⟨_, h.exec_eq, State.append_answered hr⟩

/-! ## The checks of the codec commands as the statements write them -/

theorem representable_iff (S : Signedness) (W : Nat) (v : Int) : representable S W v = true ↔ InRange S W v := by
  cases S <;> simp [representable, InRange]

theorem hasHighByte_iff (text : List Byte) : hasHighByte text = true ↔ ∃ b ∈ text, 0x80 ≤ b.toNat := by
  simp [hasHighByte]

theorem hasHighByte_eq_false_iff (text : List Byte) : hasHighByte text = false ↔ ∀ b ∈ text, b.toNat < 0x80 := by
  simp [hasHighByte]

/-- The four bytes of a float field are those of `data[31:0]` (R68, R89). -/
theorem floatBytes_floatOperand (data : Data) : floatBytes (floatOperand data)
    = [data.extractLsb' 24 8, data.extractLsb' 16 8, data.extractLsb' 8 8, data.extractLsb' 0 8] := by
  have byte (k : Nat) (hk : k + 8 ≤ 32) : (data.extractLsb' 0 32).extractLsb' k 8 = data.extractLsb' k 8 := by
    ext i hi
    simp [show k + i < 32 by omega]
  simp only [floatBytes, floatOperand, byte, Nat.reduceAdd, Nat.reduceLeDiff]

/-! ## Decoding by the fields a command does not use -/

theorem unusedZero_iff_bits (m : Mnemonic) (w : Word) :
    m.unusedZero w = true ↔ ∀ f ∈ m.unusedFields, bits w f.1 f.2 = 0 := by
  simp [Mnemonic.unusedZero]

/-- At a row's opcode, a word with all unused fields 0 decodes to the row's instruction, and any other is illegal. -/
theorem decode_by_unusedFields {m : Mnemonic} {c : Command} (hop : opField c.word = opField m.row.pattern) :
    ((∀ f ∈ m.unusedFields, bits c.word f.1 f.2 = 0) → decode c = .ok (m.instr c)) ∧
      ((∃ f ∈ m.unusedFields, bits c.word f.1 f.2 ≠ 0) → IsIllegal c) := by
  refine ⟨fun hz => ?_, fun ⟨f, hf, hne⟩ => ?_⟩
  · rw [decode_of_opField hop, ifUnusedZero_eq_ok]
    exact ⟨(unusedZero_iff_bits m _).mpr hz, rfl⟩
  · refine isIllegal_of_unused_set hop (Bool.eq_false_iff.mpr fun hz => hne ?_)
    exact (unusedZero_iff_bits m _).mp hz f hf

/-- `decode_by_unusedFields` for a row with one unused field. -/
theorem decode_by_unusedField {m : Mnemonic} {c : Command} (hop : opField c.word = opField m.row.pattern)
    {f : Nat × Nat} (hm : m.unusedFields = [f]) :
    (bits c.word f.1 f.2 = 0 → decode c = .ok (m.instr c)) ∧ (bits c.word f.1 f.2 ≠ 0 → IsIllegal c) := by
  simpa only [hm, List.mem_singleton, forall_eq, exists_eq_left] using decode_by_unusedFields hop

/-- `decode_by_unusedFields` for a row with two unused fields. -/
theorem decode_by_two_unusedFields {m : Mnemonic} {c : Command} (hop : opField c.word = opField m.row.pattern)
    {f g : Nat × Nat} (hm : m.unusedFields = [f, g]) :
    (bits c.word f.1 f.2 = 0 → bits c.word g.1 g.2 = 0 → decode c = .ok (m.instr c)) ∧
      (bits c.word f.1 f.2 ≠ 0 ∨ bits c.word g.1 g.2 ≠ 0 → IsIllegal c) := by
  simpa only [hm, List.forall_mem_cons, List.not_mem_nil, List.exists_mem_cons_iff, false_and, exists_false, or_false,
    IsEmpty.forall_iff, implies_true, and_true, and_imp] using decode_by_unusedFields hop

/-- A command that uses no field but `OP` has one word, the row's pattern (R67). -/
theorem decode_of_fixed_word {m : Mnemonic} {c : Command} (hmask : m.row.mask = BitVec.allOnes 32)
    (hop : opField c.word = opField m.row.pattern) :
    (c.word = m.row.pattern → decode c = .ok (m.instr c)) ∧ (c.word ≠ m.row.pattern → IsIllegal c) := by
  have hmatch : c.word &&& m.row.mask = m.row.pattern ↔ c.word = m.row.pattern := by
    rw [hmask, BitVec.and_allOnes]
  refine ⟨fun h => ?_, fun h => isIllegal_of_not_matches m.row_mem hop (mt hmatch.mp h)⟩
  have hz := ((m.matches_iff c.word).mp (hmatch.mpr h)).2
  exact (decode_of_opField hop).trans (ifUnusedZero_eq_ok.mpr ⟨hz, rfl⟩)

theorem bits_one_eq_one_iff (w : Word) (k : Nat) : bits w k 1 = 1#1 ↔ w.getLsbD k = true := by
  rw [bits_eq_iff, BitVec.getLsbD, Nat.testBit_eq_decide_div_mod_eq]; simp

theorem signField_eq (w : Word) : signField w = if w.getLsbD 4 = true then .signed else .unsigned := by
  simp only [signField, bits_one_eq_one_iff]

theorem policyField_eq (w : Word) : policyField w = if w.getLsbD 5 = true then .truncating else .strict := by
  simp only [policyField, bits_one_eq_one_iff]

/-! ## ENC_INT -/

/-- Settles O21: the clauses are the constructors of `Fails` and `Succeeds` for ENC_INT, in the order of R178. -/
theorem encIntOutcomes : Obligations.EncIntOutcomes := by
  refine ⟨fun S T W data s v hv => ?_, fun c hop => ?_⟩
  · obtain rfl : v = intOperand S data := hv.trans (by cases S <;> rfl)
    simp only [← representable_iff, ← State.hasRoom_iff, ← State.hasRoom_eq_false_iff, Bool.not_eq_true]
    refine ⟨?_, ?_, fun hW hfit hr => (Fails.intOverflow S T W data hW hfit hr).exec_eq, fun hW hfit hr => ?_⟩
    · rintro rfl
      exact (Fails.intZeroWidth S T data).exec_eq
    · rintro hW rfl hout
      exact (Fails.intRange S W data hW hout).exec_eq
    · exact (Succeeds.encInt S T W data hW hfit hr).exec_appended (by rwa [beBytes_length])
  · rw [← signField_eq, ← policyField_eq]
    exact decode_by_two_unusedFields (m := .encInt) hop rfl

/-! ## ENC_FLOAT -/

/-- Settles O27: the only width is 4, and the bytes are those of `floatBytes_floatOperand`. -/
theorem encFloatOutcomes : Obligations.EncFloatOutcomes := by
  refine ⟨fun W data s => ?_, fun c hop => decode_by_two_unusedFields (m := .encFloat) hop rfl⟩
  rw [← State.hasRoom_iff, ← State.hasRoom_eq_false_iff, ← floatBytes_floatOperand]
  refine ⟨fun hW => (Fails.floatWidth W data hW).exec_eq, ?_, ?_⟩
  · rintro rfl hr
    exact (Fails.floatOverflow data hr).exec_eq
  · rintro rfl hr
    exact (Succeeds.encFloat data hr).exec_appended hr

/-! ## ENC_TEXT -/

/-- Settles O28: the clauses are the constructors of `Fails` and `Succeeds` for ENC_TEXT, in the order of R178. -/
theorem encTextOutcomes : Obligations.EncTextOutcomes := by
  refine ⟨fun W text s => ?_, fun c hop => decode_by_two_unusedFields (m := .encText) hop rfl⟩
  rw [← State.hasRoom_iff, ← State.hasRoom_eq_false_iff, ← hasHighByte_iff, ← hasHighByte_eq_false_iff]
  refine ⟨fun hL => (Fails.textTooLong W text hL).exec_eq,
    fun hL hp hb => (Fails.textNonAscii W text hL hb hp).exec_eq,
    fun hL hb hr => (Fails.textOverflow W text hL hb hr).exec_eq, fun hL hb hr => ?_⟩
  exact (Succeeds.encText W text hL hb hr).exec_appended (by rwa [textField_length hL])

/-! ## BUF_CLEAR and BUF_READ -/

/-- Settles O29: BUF_CLEAR leaves `State.clearBuffer`, whose empty buffer lists no index. -/
theorem bufClearEmptiesTheBuffer : Obligations.BufClearEmptiesTheBuffer :=
  ⟨fun _ => ⟨_, Succeeds.bufClear.exec_eq, rfl, fun _ => rfl, rfl, rfl, rfl, rfl, rfl, rfl⟩,
    fun _ hop => decode_of_fixed_word (m := .bufClear) (by decide) hop⟩

/-- Settles O30: below `LEN` the buffer invariant provides the byte that BUF_READ answers. -/
theorem bufReadReturnsTheByte : Obligations.BufReadReturnsTheByte := by
  refine ⟨fun O s hO => (Fails.bufReadRange O hO).exec_eq, fun O s hs hO => ?_,
    fun c hop => decode_by_unusedField (m := .bufRead) hop rfl⟩
  obtain ⟨b, hb⟩ := Memory.read_of_range hs.2 hO
  exact ⟨b, hb, (Succeeds.bufRead O b hO hb).exec_eq⟩

end Sys2Proof.Machine

/-! PROOFS. The family 41_crc16.md: the round and the absorption of a byte with the spec's worked values (R121, R122,
R131), and each CRC command's outcome (R124, R125, R126, R128, R129), read off the model's `Fails` and `Succeeds`. -/

namespace Sys2Proof.Machine

/-! ## The algorithm: the round, a byte, a list of bytes (R121 to R123) -/

theorem absorb_eq_rounds (c : Half) (b : Byte) : absorb c b =
    crcRound (crcRound (crcRound (crcRound (crcRound (crcRound (crcRound (crcRound (c ^^^ b.setWidth 16)))))))) := by
  simp only [absorb, crcRounds]

/-- A byte widened to 16 bits has no bit in the high byte, so XORing it in leaves that byte (R122). -/
theorem xor_byte_high (c : Half) (b : Byte) : (c ^^^ b.setWidth 16).extractLsb' 8 8 = c.extractLsb' 8 8 := by
  ext i hi
  simp

@[simp] theorem absorbList_nil (c : Half) : absorbList c [] = c := rfl

@[simp] theorem absorbList_cons (c : Half) (b : Byte) (l : List Byte) :
    absorbList c (b :: l) = absorbList (absorb c b) l := rfl

/-! ## The spec's worked values -/

/-- The running value of R122's trace: 0xFFFF, and what each of the eight rounds of `absorb(0xFFFF, 0x00)` leaves. -/
theorem crcRounds_seed_trace : ((List.range 9).map fun n => crcRounds n 0xFFFF#16) =
    [0xFFFF#16, 0xDFFE#16, 0x6FFF#16, 0x97FE#16, 0x4BFF#16, 0x85FE#16, 0x42FF#16, 0x817E#16, 0x40BF#16] := by decide

theorem absorb_seed_zero : absorb 0xFFFF#16 0x00#8 = 0x40BF#16 := by decide

/-- R131's running value, byte by byte. -/
theorem absorb_fixture_bytes : absorb 0x40BF#16 0x01#8 = 0x70C0#16 ∧ absorb 0x70C0#16 0x02#8 = 0x91F1#16 := by decide

/-- R126's example: the running value goes 0xFFFF, 0xA0FE, 0x8161, 0x2B41, 0x95EA, 0x37D5, 0x9FF6, 0x461F. -/
theorem absorbList_crcBuf_example :
    absorbList 0xFFFF#16 [127#8, 3#8, 4#8, 140#8, 161#8, 0#8, 0#8] = 0x461F#16 := by
  have h1 : absorb 0xFFFF#16 127#8 = 0xA0FE#16 := by decide
  have h2 : absorb 0xA0FE#16 3#8 = 0x8161#16 := by decide
  have h3 : absorb 0x8161#16 4#8 = 0x2B41#16 := by decide
  have h4 : absorb 0x2B41#16 140#8 = 0x95EA#16 := by decide
  have h5 : absorb 0x95EA#16 161#8 = 0x37D5#16 := by decide
  have h6 : absorb 0x37D5#16 0#8 = 0x9FF6#16 := by decide
  have h7 : absorb 0x9FF6#16 0#8 = 0x461F#16 := by decide
  simp only [absorbList_cons, absorbList_nil, h1, h2, h3, h4, h5, h6, h7]

/-- Settles O10, from the equations of the round and of a byte and the spec's worked values. -/
theorem crcRoundAndAbsorb : Obligations.CrcRoundAndAbsorb :=
  ⟨fun _ => rfl, absorb_eq_rounds, xor_byte_high, by decide, by decide, by decide, by decide, absorb_seed_zero,
    crcRounds_seed_trace⟩

/-- Settles O11: the list is absorbed one byte after another, through the values of `absorb_fixture_bytes`. -/
theorem crcFixture : Obligations.CrcFixture := by
  obtain ⟨hone, htwo⟩ := absorb_fixture_bytes
  refine ⟨absorb_seed_zero, hone, htwo, ?_⟩
  simp only [absorbList_cons, absorbList_nil, absorb_seed_zero, hone, htwo]

/-! ## CRC_INIT, CRC_BYTE and CRC_READ -/

/-- Settles O12: CRC_INIT succeeds in every state, and its word has no field but `OP`. -/
theorem crcInitLoadsTheSeed : Obligations.CrcInitLoadsTheSeed :=
  ⟨fun _ => Succeeds.crcInit.exec_eq, fun _ hop => decode_of_fixed_word (m := .crcInit) (by decide) hop⟩

/-- Settles O13: CRC_BYTE succeeds in every state, and its word has no field but `OP`. -/
theorem crcByteAbsorbsTheLowByte : Obligations.CrcByteAbsorbsTheLowByte := by
  refine ⟨fun data s => (Succeeds.crcByte data).exec_eq,
    fun c hop => decode_of_fixed_word (m := .crcByte) (by decide) hop, fun s hs => ?_⟩
  refine ⟨_, (Succeeds.crcByte 0).exec_eq, ?_⟩
  rw [State.answered_crc, State.setCrc_crc, hs]
  exact absorb_seed_zero

/-- The CRC in 32 bits has 0 in the upper half (R129). -/
theorem zext_crc_high (c : Half) : (c.setWidth 32).extractLsb' 16 16 = 0#16 := by
  ext i hi
  simp

/-- Settles O16: CRC_READ succeeds in every state, and its word has no field but `OP`. -/
theorem crcReadReturnsTheCrc : Obligations.CrcReadReturnsTheCrc :=
  ⟨fun s => ⟨Succeeds.crcRead.exec_eq, zext_crc_high s.crc⟩,
    fun _ hop => decode_of_fixed_word (m := .crcRead) (by decide) hop⟩

/-! ## CRC_BUF -/

/-- CRC_BUF at `O = LEN` absorbs no byte and leaves `CRC` (R126). -/
theorem execCrcBuf_at_len (s : State) : exec (.crcBuf s.len.toNat) s = .next (s.answered 0) :=
  execCrcBuf_of_holds (l := []) le_rfl (Nat.sub_self _).symm fun _ hk => absurd hk (Nat.not_lt_zero _)

/-- Settles O14: past `LEN` it fails; up to `LEN` the buffer invariant provides the bytes that CRC_BUF absorbs. -/
theorem crcBufAbsorbsFromTheOffset : Obligations.CrcBufAbsorbsFromTheOffset := by
  refine ⟨fun O s hO => (Fails.crcBufRange O hO).exec_eq, fun O s hs hO => ?_, fun s _ => execCrcBuf_at_len s,
    absorbList_crcBuf_example, fun c hop => decode_by_unusedField (m := .crcBuf) hop rfl⟩
  obtain ⟨l, hlen, hl⟩ := hs.exists_holds hO
  exact ⟨l, hlen, hl, (Succeeds.crcBuf O l hO hlen hl).exec_eq⟩

/-! ## CRC_EMIT -/

/-- Settles O15: room for two bytes decides, and the bytes are those of `le2`. -/
theorem crcEmitAppendsTheTrailer : Obligations.CrcEmitAppendsTheTrailer := by
  refine ⟨fun s hfull => ?_, fun s hroom => ?_, fun c hop => decode_of_fixed_word (m := .crcEmit) (by decide) hop⟩
  · exact (Fails.emitOverflow ((s.hasRoom_eq_false_iff 2).mpr hfull)).exec_eq
  · have hr : s.hasRoom (le2 s.crc).length = true := (s.hasRoom_iff 2).mpr hroom
    exact (Succeeds.crcEmit hr).exec_appended hr

end Sys2Proof.Machine

/-! PROOFS. The family 42_control.md: what NOP, STAT_READ and STAT_CLEAR answer (R151 to R153), read off the model's
`Succeeds`, with the fields of the STATUS view (R24). Each of the three words has no field but `OP`. -/

namespace Sys2Proof.Machine

/-! ## The STATUS view, bit by bit (R24) -/

/-- The three fields of STATUS do not overlap: `LEN` from bit 16 on, `FIRST` in bits 7 to 4, `ERR` in bit 0. -/
theorem State.status_getLsbD (s : State) {i : Nat} (hi : i < 32) : s.status.getLsbD i =
    ((decide (16 ≤ i) && s.len.getLsbD (i - 16)) || (decide (4 ≤ i) && s.first.getLsbD (i - 4)) ||
      (decide (i = 0) && s.err)) := by
  have hsub (k : Nat) : i - k < 32 := by omega
  simp only [State.status, BitVec.getLsbD_or, BitVec.getLsbD_shiftLeft, BitVec.getLsbD_setWidth, BitVec.getLsbD_ofBool,
    hi, hsub, decide_true, Bool.true_and, ← Nat.not_lt, decide_not]

theorem State.status_len (s : State) : s.status.extractLsb' 16 16 = s.len := by
  ext i hi
  simp [s.status_getLsbD (show 16 + i < 32 by omega), BitVec.getLsbD_of_ge s.first _ (show 4 ≤ 16 + i - 4 by omega), hi]

theorem State.status_first (s : State) : s.status.extractLsb' 4 4 = s.first := by
  ext i hi
  simp [s.status_getLsbD (show 4 + i < 32 by omega), show ¬16 ≤ 4 + i by omega, hi]

theorem State.status_err (s : State) : s.status.getLsbD 0 = s.err := by
  rw [s.status_getLsbD (by omega)]
  simp

/-- Bits 15:8 of STATUS are reserved. -/
theorem State.status_reserved_high (s : State) : s.status.extractLsb' 8 8 = 0#8 := by
  ext i hi
  simp [s.status_getLsbD (show 8 + i < 32 by omega), show ¬16 ≤ 8 + i by omega,
    BitVec.getLsbD_of_ge s.first _ (show 4 ≤ 8 + i - 4 by omega)]

/-- Bits 3:1 of STATUS are reserved. -/
theorem State.status_reserved_low (s : State) : s.status.extractLsb' 1 3 = 0#3 := by
  ext i hi
  simp [s.status_getLsbD (show 1 + i < 32 by omega), show ¬16 ≤ 1 + i by omega, show ¬4 ≤ 1 + i by omega]

/-- STATUS as R24 writes it, `zext_32(ERR)` by cases on the flag. -/
theorem State.status_eq (s : State) : s.status =
    (s.len.setWidth 32 <<< 16) ||| (s.first.setWidth 32 <<< 4) ||| (if s.err = true then 1#32 else 0#32) := by
  rw [State.status]
  cases s.err <;> rfl

theorem State.StickyInv.first_eq_zero {s : State} (h : s.StickyInv) (herr : s.err = false) : s.first = 0#4 := by
  simpa only [State.StickyInv, herr, Bool.false_eq_true, if_false] using h

/-! ## An accepted illegal word (R172) -/

/-- A step that accepts an illegal word sets `ERR` (R176). -/
theorem IsIllegal.step_err {c : Command} (h : IsIllegal c) {s t : State} {rest : List PortEvent}
    (hp : s.port = .command c :: rest) (ht : step s = .next t) : t.err = true := by
  obtain ⟨-, hstep⟩ := h
  cases ht.symm.trans (hstep s rest hp)
  exact State.rejected_err ..

/-! ## NOP, STAT_READ and STAT_CLEAR -/

/-- Settles O7: NOP succeeds in every state and writes nothing, and its word has no field but `OP`. -/
theorem nopOnlyResponds : Obligations.NopOnlyResponds :=
  ⟨fun _ => Succeeds.nop.exec_eq, fun _ hop => decode_of_fixed_word (m := .nop) (by decide) hop⟩

/-- Settles O8: STAT_READ succeeds in every state with the STATUS view, whose fields are read off its bits. -/
theorem statReadReturnsStatus : Obligations.StatReadReturnsStatus := by
  refine ⟨fun s => ?_, fun c hop => decode_of_fixed_word (m := .statRead) (by decide) hop⟩
  refine ⟨s.status, Succeeds.statRead.exec_eq, s.status_eq, s.status_len, s.status_reserved_high, s.status_first,
    s.status_reserved_low, s.status_err, fun hs herr => ?_⟩
  exact s.status_first.trans (hs.first_eq_zero herr)

/-- With `OP` 0xB there is one legal word, STAT_CLEAR's; R67 makes every other one illegal. -/
theorem decode_statClear_word {c : Command} (hop : opField c.word = 0xB#4) :
    (c.word = 0x0000000B#32 → decode c = .ok .statClear) ∧ (c.word ≠ 0x0000000B#32 → IsIllegal c) :=
  decode_of_fixed_word (m := .statClear) (by decide) hop

/-- Settles O9: STAT_CLEAR succeeds in every state with `State.clearErrors`, and a word with a reserved bit set is
illegal, so that the step which accepts it sets `ERR`. -/
theorem statClearClearsTheStickyState : Obligations.StatClearClearsTheStickyState :=
  ⟨fun _ => Succeeds.statClear.exec_eq, fun _ hop => decode_statClear_word hop,
    fun _ _ _ _ hp hop hne ht => ((decode_statClear_word hop).2 hne).step_err hp ht⟩

end Sys2Proof.Machine

/-! PROOFS. The family 60_exceptions.md: an idle or held port changes nothing (R188, R210), and the block never stops,
since every error is a response and the next command runs (R170, R181). -/

namespace Sys2Proof.Machine

/-! ## Waiting and idling -/

/-- Settles O41, by the equations of `step` at an idle port and at one that holds a command off. -/
theorem waitingKeepsAllState : Obligations.WaitingKeepsAllState :=
  ⟨fun _ hp => step_idle hp, fun _ _ hp => step_wait hp⟩

/-! ## Progress: every command and every step answers a next state -/

/-- Every byte below `LEN` holds a value (R23), so the model's one fault cannot arise. -/
theorem State.BufferInv.exists_exec_next {s : State} (hs : s.BufferInv) (i : Instr) : ∃ t, exec i s = .next t := by
  rcases faultOnlyOnAnAbsentByte i s with hnext | ⟨a, ha, habsent, -⟩
  · exact hnext
  · obtain ⟨b, hb⟩ := Memory.read_of_range hs.2 ha
    cases habsent.symm.trans hb

/-- Only a decoded command could stop a step: waits, resets and illegal words answer in every state. -/
theorem State.BufferInv.exists_step_next {s : State} (hs : s.BufferInv) : ∃ t, step s = .next t := by
  rcases step_cases s with ⟨-, h⟩ | ⟨rest, -, h⟩ | ⟨out, rest, -, h⟩ | ⟨c, rest, i, -, -, h⟩ | ⟨c, rest, why, -, -, h⟩
  case inr.inr.inr.inl =>
    have hport : (s.setPort rest).BufferInv := hs.congr rfl rfl rfl
    rw [h]
    exact hport.exists_exec_next i
  all_goals exact ⟨_, h⟩

/-! ## Runs of any length -/

theorem safeRun_zero (s : State) : SafeRun 0 s := ⟨s, rfl⟩

theorem safeRun_succ {n : Nat} {s t : State} (h : step s = .next t) : SafeRun (n + 1) s ↔ SafeRun n t := by
  have hrun : core.run (n + 1) s = core.run n t := core_run_succ h
  rw [SafeRun, SafeRun, hrun]

/-- Settles O45, by induction on the number of steps: a state that meets the invariant answers a next state
(`exists_step_next`), which meets it again (`step_inv`). -/
theorem noRunStops : Obligations.NoRunStops := by
  intro n
  induction n with
  | zero => exact fun s _ => safeRun_zero s
  | succ n ih =>
    intro s hs
    have ⟨_, hbuf, _⟩ := hs
    obtain ⟨t, ht⟩ := hbuf.exists_step_next
    exact (safeRun_succ ht).mpr (ih t (step_inv hs ht))

end Sys2Proof.Machine

/-! PROOFS. The family 70_reset_and_hazards.md: the reset state (R200, R202), the command a reset loses (R201), the
parameters no step changes (R205), and the read of an appended byte by a later command (R42, R211). -/

namespace Sys2Proof.Machine

/-! ## An appended byte is read by a later command (R211) -/

/-- A BUF_READ of an appended byte answers it, in any state whose buffer is still the one the append left. -/
theorem Appended.exec_bufRead {s t u : State} {l : List Byte} (h : Appended s t l) (hlen : u.len = t.len)
    (hbuf : u.buf = t.buf) {k : Nat} (hk : k < l.length) :
    exec (.bufRead (s.len.toNat + k)) u = .next (u.answered (l[k].setWidth 32)) := by
  have hbelow : s.len.toNat + k < u.len.toNat := by rw [hlen, h.len]; omega
  have hread : u.buf.read (s.len.toNat + k) = some l[k] := by
    rw [hbuf, h.stored k hk, List.getElem?_eq_getElem hk]
  exact execBufRead_of_read hbelow hread

/-- The two bytes of `LE2` read back as the number they were taken from (R9, R42). -/
theorem le2_recombines (c : Half) :
    ((c.extractLsb' 0 8).setWidth 32).toNat + 256 * ((c.extractLsb' 8 8).setWidth 32).toNat = c.toNat := by
  have hc := c.isLt
  simp only [BitVec.toNat_setWidth, BitVec.extractLsb'_toNat, Nat.shiftRight_eq_div_pow]
  omega

/-- Settles O31: CRC_EMIT appends `LE2(CRC)`, and neither BUF_READ changes the buffer the other one reads. -/
theorem crcTrailerReadsBack : Obligations.CrcTrailerReadsBack := by
  intro s hroom
  have hr : s.hasRoom (le2 s.crc).length = true := (s.hasRoom_iff 2).mpr hroom
  obtain ⟨t, hemit, happ⟩ := (Succeeds.crcEmit hr).exec_appended hr
  have hlo : exec (.bufRead s.len.toNat) t = .next (t.answered ((s.crc.extractLsb' 0 8).setWidth 32)) :=
    happ.exec_bufRead rfl rfl (k := 0) (by simp)
  have hhi (lo : Word) : exec (.bufRead (s.len.toNat + 1)) (t.answered lo)
      = .next ((t.answered lo).answered ((s.crc.extractLsb' 8 8).setWidth 32)) :=
    happ.exec_bufRead (u := t.answered lo) rfl rfl (k := 1) (by simp)
  exact ⟨t, _, _, _, _, hemit, hlo, rfl, hhi _, rfl, le2_recombines s.crc⟩

/-! ## What no command changes: the parameters and what is still to come -/

theorem Succeeds.port_eq {s u : State} {i : Instr} {rdata : Word} (h : Succeeds s i u rdata) : u.port = s.port := by
  cases h <;> rfl

theorem exec_cfg {i : Instr} {s t : State} (h : exec i s = .next t) : t.cfg = s.cfg := by
  rcases exec_next h with ⟨e, -, rfl⟩ | ⟨u, rdata, hu, rfl⟩
  · exact State.rejected_cfg ..
  · exact hu.cfg_eq

/-- A step that accepts a command takes that one event from the port. -/
theorem step_command_port {s t : State} {c : Command} {rest : List PortEvent} (hp : s.port = .command c :: rest)
    (h : step s = .next t) : t.port = rest := by
  rcases step_command_next hp h with ⟨e, rfl⟩ | ⟨i, u, rdata, -, hu, rfl⟩
  · rfl
  · exact hu.port_eq

/-- Settles O38: waits and resets leave the parameters, and so does a command, rejected or performed. -/
theorem parametersNeverChange : Obligations.ParametersNeverChange := by
  intro s t h
  cases step_next h with
  | idle | wait | reset | illegal => rfl
  | command _ _ ht => exact (exec_cfg ht).trans (State.setPort_cfg ..)

/-! ## The reset state -/

theorem State.resetWith_inResetState (cfg : Config) : InResetState (State.resetWith cfg) :=
  ⟨rfl, rfl, fun _ => rfl, rfl, rfl⟩

/-- The reset input leaves the power-on state of the block's own parameters, but for the two ports (R200, R205). -/
theorem State.applyReset_eq (s : State) :
    s.applyReset = { State.resetWith s.cfg with port := s.port, responses := s.responses } := rfl

/-- Reset replaces the whole architectural state, so nothing of it depends on the state before (R201). -/
theorem State.applyReset_sameArchitecturalState (s s' : State) (rest : List PortEvent) :
    SameArchitecturalState (s.applyReset.setPort rest) (s'.applyReset.setPort rest) := ⟨rfl, rfl, rfl, rfl, rfl⟩

theorem step_reset_next {s t : State} {out : Option Command} {rest : List PortEvent} (hp : s.port = .reset out :: rest)
    (h : step s = .next t) : t = s.applyReset.setPort rest := by
  rw [step_reset hp] at h
  cases h
  rfl

/-- Settles O39: the reset event answers the power-on state of the block's parameters. -/
theorem resetState : Obligations.ResetState := by
  refine ⟨fun cfg => ⟨State.resetWith_inResetState cfg, rfl⟩, fun s out rest hp => ?_⟩
  refine ⟨_, step_reset hp, ?_⟩
  rw [State.applyReset_eq]
  exact ⟨State.resetWith_inResetState s.cfg, ⟨rfl, rfl, rfl, rfl, rfl⟩, rfl, rfl, rfl⟩

/-- Settles O42: an empty buffer, clear sticky state and no response yet. -/
theorem resetMeetsTheInvariant : Obligations.ResetMeetsTheInvariant :=
  fun _ hcfg => ⟨hcfg, State.bufferInv_of_empty rfl rfl, State.stickyInv_of_clear rfl rfl, List.forall_mem_nil _⟩

/-! ## The command a reset loses -/

/-- Settles O40: the command that took effect got one response and left the reset behind it at the port; both runs
then end in a reset, which forgets the effect. -/
theorem resetLosesTheOutstandingCommand : Obligations.ResetLosesTheOutstandingCommand := by
  intro s t u v c rest hcommand hreset hlost
  have hport : t.port = .reset none :: rest := step_command_port rfl hcommand
  obtain ⟨r, hresponse, -⟩ := failingCommandChangesOnlyTheStickyState _ _ c _ rfl hcommand
  have hu : u = t.applyReset.setPort rest := step_reset_next hport hreset
  have hv : v = ({ s with port := .reset (some c) :: rest } : State).applyReset.setPort rest :=
    step_reset_next rfl hlost
  rw [hu, hv]
  exact ⟨State.applyReset_sameArchitecturalState .., rfl, rfl, by simp [hresponse]⟩

end Sys2Proof.Machine

/-! PROOFS. The laws the spec derives: the CRC's residue and its sensitivity to one byte (R132, R121 to R123), the two
ways to a CRC (R127), what the bytes of an integer field say about its value (R83 to R86, R111, R112), and the repeat
of a failing command (R179). -/

namespace Sys2Proof.Machine

/-! ## A failing command presented again (R179) -/

/-- Whether a command fails, and with which code, depends on the command, `LEN` and the parameters alone. -/
theorem step_fails_congr {s t s' : State} {c : Command} {rest rest' : List PortEvent} {code : Code} {rdata : Word}
    (hp : s.port = .command c :: rest) (h : step s = .next t) (ha : AnsweredWith s t code rdata) (hne : code ≠ 0#4)
    (hp' : s'.port = .command c :: rest') (hlen : s'.len = s.len) (hcfg : s'.cfg = s.cfg) :
    step s' = .next ((s'.setPort rest').rejected code) := by
  cases hd : decode c with
  | error why =>
    rw [step_illegal hp hd] at h
    cases h
    obtain ⟨rfl, -⟩ := ha.unique (State.rejected_answeredWith (s.setPort rest) 3#4)
    exact step_illegal hp' hd
  | ok i =>
    rw [step_command hp hd] at h
    rcases exec_next h with ⟨e, hfails, rfl⟩ | ⟨u, rdata', hu, rfl⟩
    · obtain ⟨rfl, -⟩ := ha.unique (State.rejected_answeredWith (s.setPort rest) e.code)
      rw [step_command hp' hd]
      exact (hfails.congr (u := s'.setPort rest') hlen hcfg).exec_eq
    · exact absurd (ha.unique hu.answeredWith).1 hne

/-- With `ERR` set, one failure more leaves the architectural state (R176). -/
theorem State.rejected_sameArchitecturalState {s : State} (herr : s.err = true) (code : Code) :
    SameArchitecturalState s (s.rejected code) :=
  ⟨rfl, rfl, rfl, herr.symm, by rw [State.rejected_first, if_pos herr]⟩

/-- Settles O36: the first failure keeps `LEN` and the parameters, on which alone a failure depends, and sets `ERR`. -/
theorem failureRepeats : Obligations.FailureRepeats := by
  intro s t u c rest code rdata hp h ha hne hu
  have ht : t = (s.setPort (.command c :: rest)).rejected code :=
    Host.Outcome.next.inj (h.symm.trans (step_fails_congr hp h ha hne hp rfl rfl))
  subst ht
  cases hu.symm.trans (step_fails_congr hp h ha hne (rest' := rest) rfl rfl rfl)
  exact ⟨rfl, State.rejected_sameArchitecturalState rfl code, rfl⟩

/-! ## Every step of the CRC is injective in the running value (R121 to R123) -/

/-- The polynomial's top bit keeps the bit that a round shifts out. -/
theorem crcRound_getLsbD_15 (c : Half) : (crcRound c).getLsbD 15 = c.getLsbD 0 := by
  unfold crcRound
  split
  · next hlow => simp [crcPolynomial, hlow]
  · next hlow => simpa using hlow

/-- A value is its low bit and the bits above it. -/
theorem eq_of_shift_eq {c d : Half} (hlow : c.getLsbD 0 = d.getLsbD 0) (hshift : c >>> 1 = d >>> 1) : c = d := by
  refine BitVec.eq_of_getLsbD_eq fun i _ => ?_
  cases i with
  | zero => exact hlow
  | succ j => simpa [Nat.add_comm] using congrArg (·.getLsbD j) hshift

theorem crcRound_injective : Function.Injective crcRound := by
  intro c d h
  have hlow : c.getLsbD 0 = d.getLsbD 0 := by rw [← crcRound_getLsbD_15, h, crcRound_getLsbD_15]
  refine eq_of_shift_eq hlow ?_
  simp only [crcRound, hlow] at h
  split at h
  · exact (BitVec.xor_left_inj _).mp h
  · exact h

theorem crcRounds_injective (n : Nat) : Function.Injective (crcRounds n) := by
  induction n with
  | zero => exact fun _ _ h => h
  | succ n ih => exact ih.comp crcRound_injective

theorem absorb_injective_left (b : Byte) : Function.Injective (absorb · b) :=
  fun _ _ h => (BitVec.xor_left_inj _).mp (crcRounds_injective 8 h)

theorem absorb_injective_right (c : Half) : Function.Injective (absorb c) := by
  intro b b' h
  have hwide : b.setWidth 16 = b'.setWidth 16 := (BitVec.xor_right_inj _).mp (crcRounds_injective 8 h)
  simpa using congrArg (BitVec.setWidth 8) hwide

theorem absorbList_injective (l : List Byte) : Function.Injective (absorbList · l) := by
  induction l with
  | nil => exact fun _ _ h => h
  | cons b l ih => exact ih.comp (absorb_injective_left b)

/-- Settles O18: the two lists part at the changed byte, and the equal rest keeps the running values apart. -/
theorem crcTellsOneChangedByte : Obligations.CrcTellsOneChangedByte := by
  intro c l m b b' hne h
  rw [absorbList_append, absorbList_append, absorbList_cons, absorbList_cons] at h
  exact hne (absorb_injective_right _ (absorbList_injective m h))

/-- Settles O17: past the message, the running value meets its own two bytes (`absorbList_le2_self`). -/
theorem crcResidueIsZero : Obligations.CrcResidueIsZero :=
  fun m => (absorbList_append ..).trans (absorbList_le2_self (absorbList 0xFFFF#16 m))

/-! ## One CRC_BUF, or a CRC_BYTE for each byte (R127) -/

/-- The CRC_BYTEs of a list of bytes, in order. -/
def crcByteCommands (l : List Byte) : List Instr := l.map fun b => .crcByte (b.setWidth 64)

theorem byteOperand_setWidth (b : Byte) : byteOperand (b.setWidth 64) = b := by
  ext i hi
  simp [byteOperand, hi]; omega

theorem execList_crcByteCommands (l : List Byte) (s : State) :
    ∃ u, execList (crcByteCommands l) s = .next u ∧
      u.crc = absorbList s.crc l ∧ u.buf = s.buf ∧ u.len = s.len := by
  induction l generalizing s with
  | nil => exact ⟨s, rfl, rfl, rfl, rfl⟩
  | cons b l ih =>
    have hfirst : exec (.crcByte (b.setWidth 64)) s = .next ((s.setCrc (absorb s.crc b)).answered 0) := by
      simpa only [byteOperand_setWidth] using (Succeeds.crcByte (s := s) (b.setWidth 64)).exec_eq
    obtain ⟨u, hrun, hcrc, hbuf, hlen⟩ := ih ((s.setCrc (absorb s.crc b)).answered 0)
    exact ⟨u, (execList_cons hfirst).trans hrun, hcrc, hbuf, hlen⟩

/-- Settles O19: both ways absorb the bytes which the buffer invariant provides. -/
theorem crcBufAgreesWithCrcBytes : Obligations.CrcBufAgreesWithCrcBytes := by
  intro O s hs hO
  obtain ⟨l, hlen, hl⟩ := hs.exists_holds hO
  obtain ⟨u, hrun, hcrc, hbuf, hkept⟩ := execList_crcByteCommands l s
  exact ⟨l, _, u, hlen, hl, execCrcBuf_of_holds hO hlen hl, hrun, hcrc.symm, hbuf, hkept⟩

/-! ## The value of the data operand -/

theorem sint_eq_toInt (d : Data) : sint d = d.toInt := by
  rw [sint, BitVec.toInt_eq_msb_cond, BitVec.msb_eq_getLsbD_last]
  rfl

/-- The operand's value is a number of eight bytes of the named signedness (R8). -/
theorem intOperand_inRange_eight (S : Signedness) (d : Data) : InRange S 8 (intOperand S d) := by
  cases S with
  | signed =>
    have hlo := d.le_toInt
    have hhi := d.toInt_lt
    simp only [InRange, intOperand, sint_eq_toInt]
    omega
  | unsigned =>
    have hhi := d.isLt
    simp only [InRange, intOperand, uint]
    omega

theorem intOperand_bounds (S : Signedness) (d : Data) : -2 ^ 64 ≤ intOperand S d ∧ intOperand S d < 2 ^ 64 := by
  have h := intOperand_inRange_eight S d
  cases S <;> simp only [InRange] at h <;> omega

theorem InRange.mono {S : Signedness} {W V : Nat} {v : Int} (h : InRange S W v) (hWV : W ≤ V) : InRange S V v := by
  have hpow {m n : Nat} (hmn : m ≤ n) : (2 : Int) ^ m ≤ 2 ^ n := pow_le_pow_right₀ (by decide) hmn
  cases S with
  | signed =>
    have := hpow (show 8 * W - 1 ≤ 8 * V - 1 by omega)
    simp only [InRange] at h ⊢
    omega
  | unsigned =>
    have := hpow (show 8 * W ≤ 8 * V by omega)
    simp only [InRange] at h ⊢
    omega

/-- Settles O22: the range of eight bytes holds the operand, and a wider one includes it. -/
theorem eightBytesHoldEveryOperand : Obligations.EightBytesHoldEveryOperand := by
  intro S W data hW
  have hrange : InRange S W (intOperand S data) := (intOperand_inRange_eight S data).mono hW
  exact ⟨hrange, (representable_iff ..).mpr hrange⟩

/-- The operand's value is its 64-bit pattern modulo `2^64`, in either reading. -/
theorem reduceTo_eight_intOperand (S : Signedness) (d : Data) : reduceTo 8 (intOperand S d) = d.toNat := by
  have hlt := d.isLt
  cases S with
  | signed =>
    simp only [reduceTo, intOperand, sint]
    split <;> omega
  | unsigned =>
    simp only [reduceTo, intOperand, uint]
    omega

/-- Settles O23: on a value that fits, either policy passes the checks and appends. -/
theorem policiesAgreeOnRepresentableValues : Obligations.PoliciesAgreeOnRepresentableValues := by
  intro S W data s hW hrange
  have hfits := (representable_iff ..).mpr hrange
  have hne : W ≠ 0 := by omega
  exact (exec_encInt_of_fits s hne fun _ => hfits).trans (exec_encInt_of_fits s hne fun _ => hfits).symm

/-! ## The bytes of an integer field, one by one -/

/-- Byte `k` of an integer in two's complement, byte 0 the least significant: BE_W's byte at weight `2^(8k)`, which no
width `W` above `k` changes (`ofNat_reduceTo_div`). -/
def byteAt (x : Int) (k : Nat) : Byte := BitVec.ofInt 8 (x / 2 ^ (8 * k))

theorem reduceTo_mod {W V : Nat} (x : Int) (h : W ≤ V) : reduceTo V x % 2 ^ (8 * W) = reduceTo W x := by
  have hdvd : (2 : Int) ^ (8 * W) ∣ 2 ^ (8 * V) := pow_dvd_pow 2 (by omega)
  zify
  rw [reduceTo_cast, reduceTo_cast, Int.emod_emod_of_dvd x hdvd]

theorem reduceTo_lt (W : Nat) (x : Int) : reduceTo W x < 2 ^ (8 * W) := by
  rw [← reduceTo_mod x le_rfl]
  exact Nat.mod_lt _ (by positivity)

/-- Reduction to a width above `k` leaves byte `k`. -/
theorem ofNat_reduceTo_div {W k : Nat} (x : Int) (hk : k < W) :
    BitVec.ofNat 8 (reduceTo W x / 2 ^ (8 * k)) = byteAt x k := by
  have hsplit : (2 : Int) ^ (8 * W) = 2 ^ (8 * (W - 1 - k)) * 256 * 2 ^ (8 * k) := by
    rw [show (256 : Int) = 2 ^ 8 by rfl, ← pow_add, ← pow_add]
    congr 1
    omega
  have hdiv : ((reduceTo W x / 2 ^ (8 * k) : Nat) : Int)
      = x / 2 ^ (8 * k) + -(x / 2 ^ (8 * W)) * 2 ^ (8 * (W - 1 - k)) * 256 := by
    push_cast
    rw [reduceTo_cast, ← Int.add_mul_ediv_right _ _ (by positivity), Int.emod_def, hsplit]
    congr 1
    ring
  rw [← BitVec.ofInt_natCast, hdiv, byteAt, BitVec.ofInt_add, BitVec.ofInt_mul]
  simp

theorem beBytes_eq_map_byteAt (W : Nat) (x : Int) : beBytes W x = (List.range W).map fun i => byteAt x (W - 1 - i) :=
  List.map_congr_left fun i hi => ofNat_reduceTo_div x (by have := List.mem_range.mp hi; omega)

@[simp] theorem beBytes_zero (x : Int) : beBytes 0 x = [] := rfl

/-- One byte of width more puts the next more significant byte in front (R9). -/
theorem beBytes_succ (W : Nat) (x : Int) : beBytes (W + 1) x = byteAt x W :: beBytes W x := by
  rw [beBytes_eq_map_byteAt, beBytes_eq_map_byteAt, List.range_succ_eq_map, List.map_cons, List.map_map]
  congr 1
  exact List.map_congr_left fun i _ => congrArg (byteAt x) (by simp only [Nat.succ_eq_add_one]; omega)

/-- Byte `k` below the eighth is the operand's own, in either reading. -/
theorem byteAt_intOperand (S : Signedness) (d : Data) {k : Nat} (hk : k < 8) :
    byteAt (intOperand S d) k = d.extractLsb' (8 * k) 8 := by
  rw [← ofNat_reduceTo_div _ hk, reduceTo_eight_intOperand, ← Nat.shiftRight_eq_div_pow]
  rfl

/-- Settles O25: byte by byte, by `byteAt_intOperand`. -/
theorem truncationKeepsTheLowBytes : Obligations.TruncationKeepsTheLowBytes := by
  intro S W data hW
  rw [beBytes_eq_map_byteAt]
  exact List.map_congr_left fun i hi => byteAt_intOperand S data (by have := List.mem_range.mp hi; omega)

/-- Bytes beyond a value's range repeat its sign (R85). -/
theorem byteAt_of_bounds {x : Int} {k : Nat} (hlo : -2 ^ (8 * k) ≤ x) (hhi : x < 2 ^ (8 * k)) :
    byteAt x k = if x < 0 then 0xFF#8 else 0x00#8 := by
  unfold byteAt
  split
  · next hneg =>
    have hdiv : x / 2 ^ (8 * k) = -1 :=
      (Int.ediv_eq_iff_of_pos (by positivity)).mpr ⟨by simpa using hlo, by simpa using hneg⟩
    rw [hdiv]
    rfl
  · next hpos =>
    rw [Int.ediv_eq_zero_of_lt (by omega) hhi]
    rfl

/-- Settles O26, by induction on the width from 8 up: each byte more stands in front and repeats the sign. -/
theorem wideIntegersAreExtendedAtTheFront : Obligations.WideIntegersAreExtendedAtTheFront := by
  intro S W data hW
  induction W, hW using Nat.le_induction with
  | base => rfl
  | succ W hW ih =>
    have hpow : (2 : Int) ^ 64 ≤ 2 ^ (8 * W) := pow_le_pow_right₀ (by decide) (by omega)
    obtain ⟨hlo, hhi⟩ := intOperand_bounds S data
    rw [beBytes_succ, ih, byteAt_of_bounds (by omega) (by omega), Nat.succ_sub hW, List.replicate_succ,
      List.cons_append]

/-! ## The big-endian decode of an integer field (R112) -/

theorem beValue_lt (l : List Byte) : beValue l < 2 ^ (8 * l.length) := by
  induction l with
  | nil => simp [beValue]
  | cons b l ih =>
    have hb : b.toNat + 1 ≤ 2 ^ 8 := b.isLt
    calc beValue (b :: l)
      _ = b.toNat * 2 ^ (8 * l.length) + beValue l := rfl
      _ < b.toNat * 2 ^ (8 * l.length) + 2 ^ (8 * l.length) := Nat.add_lt_add_left ih _
      _ = (b.toNat + 1) * 2 ^ (8 * l.length) := (Nat.succ_mul ..).symm
      _ ≤ 2 ^ 8 * 2 ^ (8 * l.length) := Nat.mul_le_mul_right _ hb
      _ = 2 ^ (8 * (b :: l).length) := by rw [← pow_add, List.length_cons]; congr 1; omega

theorem beValue_beBytes (W : Nat) (x : Int) : beValue (beBytes W x) = reduceTo W x := by
  induction W with
  | zero => simp [beValue, reduceTo]
  | succ W ih =>
    have htop : reduceTo (W + 1) x / 2 ^ (8 * W) < 256 := by
      rw [Nat.div_lt_iff_lt_mul (by positivity), show 256 = 2 ^ 8 by rfl, ← pow_add,
        show 8 + 8 * W = 8 * (W + 1) by omega]
      exact reduceTo_lt ..
    rw [beBytes_succ, beValue, ih, beBytes_length, ← ofNat_reduceTo_div x (Nat.lt_succ_self W), BitVec.toNat_ofNat,
      Nat.mod_eq_of_lt htop, ← reduceTo_mod x (Nat.le_succ W), Nat.div_add_mod']

/-- The signed decode takes the number's balanced residue: its top bit is that of the first byte. -/
theorem beDecode_signed {l : List Byte} (h : l ≠ []) :
    beDecode .signed l = (beValue l : Int).bmod (2 ^ (8 * l.length)) := by
  obtain ⟨b, m, rfl⟩ := List.exists_cons_of_ne_nil h
  have hrest := beValue_lt m
  have htop : b.toNat < 0x80 ↔ beValue (b :: m) < 0x80 * 2 ^ (8 * m.length) := by
    rw [beValue, ← Nat.div_lt_iff_lt_mul (by positivity), Nat.mul_comm, Nat.mul_add_div (by positivity),
      Nat.div_eq_of_lt hrest, Nat.add_zero]
  have hpow : 2 ^ (8 * (b :: m).length) = 2 * (0x80 * 2 ^ (8 * m.length)) := by
    rw [List.length_cons, Nat.mul_succ, pow_add]; omega
  have hlt := beValue_lt (b :: m)
  by_cases hb : b.toNat < 0x80
  · have hlow := htop.mp hb
    rw [beDecode, List.headD_cons, if_pos hb, Int.bmod_eq_of_le_mul_two (by omega) (by omega)]
  · have hhigh := mt htop.mpr hb
    rw [beDecode, List.headD_cons, if_neg hb, ← Int.sub_bmod_right, Int.bmod_eq_of_le_mul_two (by omega) (by omega)]
    push_cast
    rfl

/-- What BE_W writes of a value that fits, the big-endian decode reads back (R112). -/
theorem beDecode_beBytes {S : Signedness} {W : Nat} {v : Int} (hW : 1 ≤ W) (h : InRange S W v) :
    beDecode S (beBytes W v) = v := by
  cases S with
  | unsigned =>
    obtain ⟨hlo, hhi⟩ := h
    rw [beDecode, beValue_beBytes, reduceTo_cast, Int.emod_eq_of_lt hlo (by omega)]
  | signed =>
    obtain ⟨hlo, hhi⟩ := h
    have hpow : ((2 ^ (8 * W) : Nat) : Int) = 2 ^ (8 * W - 1) * 2 := by
      push_cast
      rw [← pow_succ]
      congr 1
      omega
    have hne : beBytes W v ≠ [] := List.ne_nil_of_length_pos (by rw [beBytes_length]; omega)
    have hcast : (reduceTo W v : Int) = v % (2 ^ (8 * W) : Nat) := by rw [reduceTo_cast]; push_cast; rfl
    rw [beDecode_signed hne, beValue_beBytes, beBytes_length, hcast, Int.emod_bmod]
    exact Int.bmod_eq_of_le_mul_two (by omega) (by omega)

/-- Settles O24: with a value in range and room, ENC_INT appends BE_W of the value, which decodes to it. -/
theorem encodedIntegerDecodesToItsValue : Obligations.EncodedIntegerDecodesToItsValue := by
  intro S T W data s hW hrange hroom
  have hr : s.hasRoom W = true := (s.hasRoom_iff W).mpr hroom
  have hsucc := Succeeds.encInt S T W data (by omega) (fun _ => (representable_iff ..).mpr hrange) hr
  obtain ⟨t, hexec, happ⟩ := hsucc.exec_appended (by rwa [beBytes_length])
  exact ⟨t, _, hexec, beBytes_length .., happ.stored, beDecode_beBytes hW hrange⟩

end Sys2Proof.Machine
